-- ==== Sys2Proof/Word.lean ====
section
/-! DEFINITION. The word types: a byte is the one width of this hardware (00_scope.md R6), and a register index names one
of eight registers (10_state.md R20). -/
namespace Sys2Proof

/-- An unsigned 8-bit byte, bit 7 the most significant (R6). Addition, subtraction and multiplication of bytes are
modulo 256 (R7). -/
abbrev Byte := BitVec 8

/-- The index of a general register, 0 to 7 (R5 `NUM_REGS`, R20). -/
abbrev RegIdx := Fin 8

end Sys2Proof
end

