-- ==== Sys2Proof/Config.lean ====
section
/-! DEFINITION. The implementation parameters of 00_scope.md R5: the fixed ones as constants, `OPCODE_MAP` as a structure
that decoder, encoder and step take as an argument (its default value stands in Decode.lean, where a repair may mend it),
and `CYCLES_PER_STEP` as a constant without a body. -/
namespace Sys2Proof

/-- `SP_INDEX`: register 7 is the stack pointer (R5, R22). -/
def Config.spIndex : RegIdx := 7

/-- `SP_RESET`: the empty-stack sentinel (R5, R34). -/
def Config.spReset : Byte := 0xF4#8

/-- `PC_RESET` (R5, R34). -/
def Config.pcReset : Byte := 0x00#8

/-- `LOAD_BASE`: the image is loaded from this address (R5, R161). -/
def Config.loadBase : Byte := 0x00#8

/-- `MEM_SIZE` (R5, R40). -/
def Config.memSize : Nat := 256

/-- `OPCODE_MAP` (R5, R66): the instruction byte of each of the nine instructions. It is a parameter of the step, not
state (R35). What a legal map must satisfy is `OpcodeMap.Legal` (Decode.lean). -/
structure OpcodeMap where
  hlt  : Byte
  ret  : Byte
  push : Byte
  pop  : Byte
  prn  : Byte
  call : Byte
  ldi  : Byte
  add  : Byte
  mul  : Byte
  deriving DecidableEq, Repr

/-- How many `clk` cycles beyond the first a step with this instruction byte takes (R168): open, so without a body.
No rule and no definition of the model reads it (D13). DESIGN CHOICE (log 5), safe. -/
opaque Config.extraCycles : Byte → Nat

/-- `CYCLES_PER_STEP` (R5, R168): at least 1, and it may differ from instruction to instruction. -/
def Config.cyclesPerStep (ir : Byte) : Nat := Config.extraCycles ir + 1

end Sys2Proof
end

