-- ==== Sys2Proof/Syntax.lean ====
section
/-! DEFINITION. The abstract syntax: the nine opcodes and their formats (30_encoding.md R63, R66), and `Instr`, one
constructor per row of the opcode table, its operands the raw bytes the decoder hands on (R64). -/
namespace Sys2Proof

/-- The four formats of R63. -/
inductive Format where
  /-- no operand -/
  | n
  /-- one register -/
  | r
  /-- two registers -/
  | rr
  /-- a register and an immediate -/
  | ri
  deriving DecidableEq, Repr

/-- The nine instructions as the decoder recognises them, before their operands (R66). -/
inductive Opcode where
  | hlt | ret | push | pop | prn | call | ldi | add | mul
  deriving DecidableEq, Repr

/-- All nine, in the order of R66's table. -/
def Opcode.all : List Opcode := [.hlt, .ret, .push, .pop, .prn, .call, .ldi, .add, .mul]

/-- The format column of R66. -/
def Opcode.format : Opcode → Format
  | .hlt | .ret => .n
  | .push | .pop | .prn | .call => .r
  | .ldi => .ri
  | .add | .mul => .rr

/-- How many operand bytes a format has (R63). -/
def Format.operandCount : Format → Nat
  | .n => 0
  | .r => 1
  | .rr | .ri => 2

/-- The count column of R66. -/
def Opcode.count (op : Opcode) : Nat := op.format.operandCount

/-- `regOperands(ir, a, b)` of R88: the operand bytes that are register indices, in the order they are checked (R85). -/
def Opcode.regOperands (op : Opcode) (a b : Byte) : List Byte :=
  match op.format with
  | .n => []
  | .r | .ri => [a]
  | .rr => [a, b]

/-- The instructions of the opcode table (R66). Operands are raw bytes (R64): a register operand of 8 or more can be
decoded, and running it takes the InvalidRegister halt (R85). -/
inductive Instr where
  /-- HLT (R112) -/
  | hlt
  /-- RET (R131) -/
  | ret
  /-- PUSH Ra (R121) -/
  | push (a : Byte)
  /-- POP Ra (R122) -/
  | pop (a : Byte)
  /-- PRN Ra (R111) -/
  | prn (a : Byte)
  /-- CALL Ra (R130) -/
  | call (a : Byte)
  /-- LDI Ra,imm (R110) -/
  | ldi (a imm : Byte)
  /-- ADD Ra,Rb (R101) -/
  | add (a b : Byte)
  /-- MUL Ra,Rb (R102) -/
  | mul (a b : Byte)
  deriving DecidableEq, Repr

/-- The opcode of an instruction. -/
def Instr.opcode : Instr → Opcode
  | .hlt => .hlt
  | .ret => .ret
  | .push _ => .push
  | .pop _ => .pop
  | .prn _ => .prn
  | .call _ => .call
  | .ldi _ _ => .ldi
  | .add _ _ => .add
  | .mul _ _ => .mul

/-- The operand bytes of an instruction, in the order they lie in memory (R45, R63). -/
def Instr.operands : Instr → List Byte
  | .hlt | .ret => []
  | .push a | .pop a | .prn a | .call a => [a]
  | .ldi a b | .add a b | .mul a b => [a, b]

/-- The register-index operands of an instruction, in the order they are checked (R85). -/
def Instr.regOperands : Instr → List Byte
  | .hlt | .ret => []
  | .push a | .pop a | .prn a | .call a | .ldi a _ => [a]
  | .add a b | .mul a b => [a, b]

/-- The byte that names register `r` as an operand (R64, R70). -/
def regByte (r : RegIdx) : Byte := BitVec.ofNat 8 r.val

end Sys2Proof
end

