-- ==== Sys2Proof/WellFormed.lean ====
section
/-! DEFINITION. Well-formed instructions: the ones an assembler may emit, whose register indices are 0 to 7
(30_encoding.md R64, R71). The immediate of LDI may be any byte (R110). -/
namespace Sys2Proof

/-- A register-index operand byte is valid when it is 0 to 7 (R64). -/
def validRegByte (b : Byte) : Bool := b.toNat < 8

/-- Every register-index operand of the instruction is valid (R71). -/
def Instr.wellFormed (i : Instr) : Bool := i.regOperands.all validRegByte

end Sys2Proof
end

