-- ==== Sys2Proof/Decode.lean ====
section
/-! DEFINITION. The instruction decoder of 30_encoding.md, total on any bytes (R69) and rejecting by name, the encoder of
R71, and the default `OPCODE_MAP`. Decoder and encoder take the map as an argument (R5, R66). -/
namespace Sys2Proof

/-- The default `OPCODE_MAP` (R5, R66). HLT, PRN and LDI are the source's values. The other six are
the default the spec states, UNVERIFIED: it marks them as the LS8 family's, from general knowledge (D4; log 3, unsafe). -/
def defaultOpcodeMap : OpcodeMap where
  hlt  := 0b00000001#8
  ret  := 0b00010001#8
  push := 0b01000101#8
  pop  := 0b01000110#8
  prn  := 0b01000111#8
  call := 0b01010000#8
  ldi  := 0b10000010#8
  add  := 0b10100000#8
  mul  := 0b10100010#8

/-- The instruction byte a map gives an opcode. -/
def OpcodeMap.byteOf (m : OpcodeMap) : Opcode → Byte
  | .hlt => m.hlt
  | .ret => m.ret
  | .push => m.push
  | .pop => m.pop
  | .prn => m.prn
  | .call => m.call
  | .ldi => m.ldi
  | .add => m.add
  | .mul => m.mul

/-- The operand count: the source's `instruction >> 6`, bits 7 to 6 of the instruction byte alone (R61). -/
def operandCount (ir : Byte) : Nat := (ir >>> 6).toNat

/-- The constraints R66 puts on an opcode map: each value's bits 7 to 6 are its count, the nine values are distinct, and
HLT, PRN and LDI keep their source values. -/
abbrev OpcodeMap.Legal (m : OpcodeMap) : Prop :=
  (∀ op ∈ Opcode.all, operandCount (m.byteOf op) = op.count) ∧
  (Opcode.all.map m.byteOf).Nodup ∧
  m.hlt = 0x01#8 ∧ m.prn = 0x47#8 ∧ m.ldi = 0x82#8

/-- The decoder's comparison of the whole instruction byte with the nine values of the map (R62, R66). Under a map that is
not legal the first match counts: DESIGN CHOICE (log 10), safe. -/
def OpcodeMap.lookup (m : OpcodeMap) (ir : Byte) : Option Opcode :=
  Opcode.all.find? fun op => m.byteOf op = ir

/-- The instruction an opcode makes of the fetched operand bytes (R63, R64). -/
def Opcode.assemble (op : Opcode) (a b : Byte) : Instr :=
  match op with
  | .hlt => .hlt
  | .ret => .ret
  | .push => .push a
  | .pop => .pop a
  | .prn => .prn a
  | .call => .call a
  | .ldi => .ldi a b
  | .add => .add a b
  | .mul => .mul a b

/-- Why the decoder gives no instruction. -/
inductive DecodeReject where
  /-- the instruction byte is not one of the nine of the map (R67) -/
  | invalidOpcode (ir : Byte)
  /-- a list of bytes ended before the instruction byte or the operands its count asks for (never raised by a fetch,
  which always has a byte: R40; DESIGN CHOICE, log 9, safe) -/
  | missingByte
  deriving DecidableEq, Repr

/-- What the decoder answers: some instruction, or invalid under a name (R69). -/
inductive Decoded where
  | instr (i : Instr)
  | reject (r : DecodeReject)
  deriving DecidableEq, Repr

/-- Decode an instruction byte and the two operand bytes as the step fetched them (R84, R86). -/
def decodeParts (m : OpcodeMap) (ir a b : Byte) : Decoded :=
  match m.lookup ir with
  | none => .reject (.invalidOpcode ir)
  | some op => .instr (op.assemble a b)

/-- Take the operands a count asks for from the bytes after the instruction byte: those it does not ask for are 0 (R65).
No instruction has count 3 (R61). -/
def takeOperands : Nat → List Byte → Option (Byte × Byte × List Byte)
  | 0, rest => some (0#8, 0#8, rest)
  | 1, a :: rest => some (a, 0#8, rest)
  | 2, a :: b :: rest => some (a, b, rest)
  | _, _ => none

/-- Decode the instruction at the head of a list of bytes, with the bytes after it. -/
def decode (m : OpcodeMap) : List Byte → Decoded × List Byte
  | [] => (.reject .missingByte, [])
  | ir :: rest =>
    match m.lookup ir with
    | none => (.reject (.invalidOpcode ir), rest)
    | some op =>
      match takeOperands (operandCount ir) rest with
      | none => (.reject .missingByte, rest)
      | some (a, b, rest') => (.instr (op.assemble a b), rest')

/-- The bytes of an instruction, the first at the lowest address (R63, R71). -/
def encode (m : OpcodeMap) (i : Instr) : List Byte := m.byteOf i.opcode :: i.operands

/-- Byte `k` of an instruction's bits: bit 0 is the least significant bit of the first byte. -/
def tableByte (nbits w k : Nat) : Byte := BitVec.ofNat 8 ((w % 2 ^ nbits) >>> (8 * k))

/-- The bytes of a table word up to the longest instruction, three bytes (R60), those above `nbits` zero. -/
def tableBytes (nbits w : Nat) : List Byte := [tableByte nbits w 0, tableByte nbits w 1, tableByte nbits w 2]

/-- The instruction the decoder reads from the bits `w` of an opcode-table row, with the default map. -/
def decodeTableWord (nbits w : Nat) : Option Instr :=
  match decode defaultOpcodeMap (tableBytes nbits w) with
  | (.instr i, _) => some i
  | (.reject _, _) => none

end Sys2Proof
end

