-- ==== Sys2Proof/Machine/State.lean ====
section
/-! DEFINITION. The machine's state as plain data, exactly the tuple of 10_state.md R35 and the load-count latch of R33 and
R161, and its value at reset. -/
namespace Sys2Proof.Machine

/-- The memory: (address, byte) pairs, in the canonical form `Memory.wf`. -/
abbrev Memory := List Host.Cell

/-- What an address no entry lists reads as: every cell the loader did not write is 0x00 (R34, R48). -/
def Memory.unlisted : Byte := 0x00#8

/-- The canonical form: addresses strictly rising, each one of the 256 of R40, and no entry equal to what an unlisted
address reads as. -/
abbrev Memory.wf (m : Memory) : Prop :=
  m.Pairwise (fun c d => c.1 < d.1) ∧ ∀ c ∈ m, c.1 < Config.memSize ∧ c.2 ≠ Memory.unlisted

/-- The run state (R26), with the "held in reset" of R34's table beside the engine's two states. DEDUCED (log 2), unsafe. -/
inductive RunState where
  /-- `rst = 1`: the engine takes no step and the loader may write memory (R34, R80, R161) -/
  | heldInReset
  /-- the only state in which a step exists (R80) -/
  | running
  /-- terminal: left only by reset (R26, R146) -/
  | halted
  deriving DecidableEq, Repr

/-- The halt-reason register: its four values are all a 2-bit register can hold (R27). -/
inductive HaltReason where
  /-- code 0: the engine has not halted -/
  | none
  /-- code 1: the HLT instruction (R112) -/
  | hlt
  /-- code 2: an unrecognised instruction byte (R141) -/
  | invalidOpcode
  /-- code 3: a register-index operand of 8 or more (R142) -/
  | invalidRegister
  deriving DecidableEq, Repr

/-- The architectural state (R35), and the latch of `load_count` (R33, R161). -/
structure State where
  /-- the general registers `x[0]` to `x[7]`, `x[7]` the stack pointer (R20, R22) -/
  x : Vector Byte 8
  /-- the program counter: during a step, the address of the instruction byte being executed (R24) -/
  pc : Byte
  /-- the 256 cells of memory (R30, R40) -/
  mem : Memory
  /-- the run state (R26) -/
  run : RunState
  /-- why the engine left Running (R27) -/
  haltReason : HaltReason
  /-- the address of the instruction an error halt stopped at (R28) -/
  errPc : Byte
  /-- the instruction byte or operand byte an error halt reports (R28) -/
  errByte : Byte
  /-- the bytes PRN has emitted since reset, oldest first (R29) -/
  out : List Byte
  /-- the latched count of loaded bytes: no rule reads it (R31, R161) -/
  loadCount : BitVec 9
  deriving DecidableEq, Repr

/-- Why the machine takes no step. The hardware itself has no fault: an invalid opcode and an invalid register are halts,
ordinary next states (R140). -/
inductive Fault where
  /-- Raised by `step` alone, in a state whose `run` is Halted: no step exists there (R80, R169). Safe: the machine stops
  where the hardware has no transition but reset (log 1). -/
  | halted
  /-- Raised by `step` alone, in a state held in reset: no step exists while `rst = 1` (R80, R160). Safe (log 1). -/
  | heldInReset
  deriving DecidableEq, Repr

/-- Why the model gives an instruction no meaning. -/
inductive Refusal where
  /-- Raised by an arm of `exec` whose instruction has no meaning yet: none has. Safe. -/
  | notModelled (mnemonic : String)
  deriving DecidableEq, Repr

/-- The register file after reset: zero but for the stack pointer (R34). -/
def resetRegs : Vector Byte 8 :=
  #v[0x00#8, 0x00#8, 0x00#8, 0x00#8, 0x00#8, 0x00#8, 0x00#8, Config.spReset]

/-- The machine right after reset with nothing loaded, at the moment Running begins: the last column of R34's table. The
spec states every value but `loadCount`, which is DESIGN CHOICE (log 4). -/
def State.reset : State where
  x := resetRegs
  pc := Config.pcReset
  mem := []
  run := .running
  haltReason := .none
  errPc := 0x00#8
  errByte := 0x00#8
  out := []
  loadCount := 0#9

end Sys2Proof.Machine
end

