-- ==== Sys2Proof/Machine/Ops.lean ====
section
/-! DEFINITION. The state access primitives of 00_scope.md R8, over which every meaning is written: memory, registers, the
stack pointer, the program counter, `emit`, `halt`, and the one shared operation that takes an error halt. -/
namespace Sys2Proof.Machine

/-- Read the cell with this address from the list (R42). -/
def Memory.readAt : Memory → Nat → Byte
  | [], _ => Memory.unlisted
  | (k, w) :: rest, a => if k = a then w else Memory.readAt rest a

/-- Put an entry at the head of the list, unless it equals what an unlisted address reads as. -/
def Memory.consCell (a : Nat) (v : Byte) (m : Memory) : Memory :=
  if v = Memory.unlisted then m else (a, v) :: m

/-- Write the cell with this address, keeping the canonical form (R43). -/
def Memory.writeAt : Memory → Nat → Byte → Memory
  | [], a, v => Memory.consCell a v []
  | (k, w) :: rest, a, v =>
    if a < k then Memory.consCell a v ((k, w) :: rest)
    else if a = k then Memory.consCell a v rest
    else (k, w) :: Memory.writeAt rest a v

/-- `MemRead(a, 1)`: every one of the 256 addresses selects a cell (R40, R42). -/
def Memory.read (m : Memory) (a : Byte) : Byte := m.readAt a.toNat

/-- `MemWrite(a, 1, v)` on the memory alone (R43). -/
def Memory.write (m : Memory) (a : Byte) (v : Byte) : Memory := m.writeAt a.toNat v

/-- `MemRead(a, 1)` (R8, R42): it changes no state and cannot fault (R41). -/
def State.memRead (s : State) (a : Byte) : Byte := s.mem.read a

/-- `MemWrite(a, 1, v)` (R8, R43): it changes no other cell and no other state. -/
def State.memWrite (s : State) (a v : Byte) : State := { s with mem := s.mem.write a v }

/-- `x[i]`: no register is hard-wired (R8, R20). -/
def State.getReg (s : State) (i : RegIdx) : Byte := s.x[i]

/-- `x[i] <- v` (R8, R20). -/
def State.setReg (s : State) (i : RegIdx) (v : Byte) : State := { s with x := s.x.set i v }

/-- `SP`, the name of `x[7]` (R8, R22). -/
def State.sp (s : State) : Byte := s.getReg Config.spIndex

/-- `SP <- v` (R8, R22). -/
def State.setSp (s : State) (v : Byte) : State := s.setReg Config.spIndex v

/-- `SP <- (SP - 1) mod 256`, the first statement of a push (R120). -/
def State.decSp (s : State) : State := s.setSp (s.sp - 1#8)

/-- `SP <- (SP + 1) mod 256`, the last statement of a pop (R120). -/
def State.incSp (s : State) : State := s.setSp (s.sp + 1#8)

/-- `pc <- v` (R8, R24). -/
def State.setPc (s : State) (v : Byte) : State := { s with pc := v }

/-- The common advance: `pc <- (pc + count + 1) mod 256` (R87). -/
def State.advance (s : State) (op : Opcode) : State := s.setPc (s.pc + BitVec.ofNat 8 op.count + 1#8)

/-- `emit(v)`: append to the output sequence (R8, R29). The pulse of the output port is `outPort` (Ports.lean). -/
def State.emit (s : State) (v : Byte) : State := { s with out := s.out ++ [v] }

/-- `halt(reason)` (R8): `run <- Halted; halt_reason <- reason`. -/
def State.halt (s : State) (reason : HaltReason) : State := { s with run := .halted, haltReason := reason }

/-- Taking an exceptional condition: the one shared operation. The engine halts, the reason, the address of the halting
instruction and the offending byte are recorded, and nothing else changes, `pc` included (R141, R142, R145). There is no
handler and no return (R145, R146): only reset leaves Halted (`sampleInputs`, Ports.lean). -/
def State.raiseHalt (s : State) (reason : HaltReason) (byte : Byte) : State :=
  { s.halt reason with errPc := s.pc, errByte := byte }

/-- `raise InvalidOpcode(pc, ir)` (R141). -/
def State.raiseInvalidOpcode (s : State) (ir : Byte) : State := s.raiseHalt .invalidOpcode ir

/-- `raise InvalidRegister(pc, r)` (R142). -/
def State.raiseInvalidRegister (s : State) (r : Byte) : State := s.raiseHalt .invalidRegister r

/-- Store bytes at ascending addresses from `a`, wrapping past 255 (R41, R45). -/
def State.storeBytes (s : State) (a : Byte) : List Byte → State
  | [] => s
  | v :: rest => (s.memWrite a v).storeBytes (a + 1#8) rest

/-- The machine with an opcode-table word stored at `pc`, and Running, so that the next step fetches it (R80, R81).
DESIGN CHOICE (log 8), unsafe. -/
def State.placeWord (s : State) (nbits w : Nat) : State :=
  { s.storeBytes s.pc (tableBytes nbits w) with run := .running }

end Sys2Proof.Machine
end

