-- ==== Sys2Proof/Machine/Operands.lean ====
section
/-! DEFINITION. Operand forms: the fetch of the instruction byte and its operands (40_engine_cycle.md R81 to R83), and the
register-index check (R85). An immediate needs no form: it is its raw byte (30_encoding.md R64). -/
namespace Sys2Proof.Machine

/-- The bytes one step fetches: `ir`, `a` and `b`, fixed from here to the end of the step (R9, R51). -/
structure Fetched where
  ir : Byte
  a : Byte
  b : Byte
  deriving DecidableEq, Repr

/-- Fetch the instruction byte at `pc` and the operands its count asks for, at addresses that wrap past 255; an operand
the count does not ask for is 0 (R65, R81, R82, R83). -/
def fetch (s : State) : Fetched where
  ir := s.memRead s.pc
  a := if 1 ≤ operandCount (s.memRead s.pc) then s.memRead (s.pc + 1#8) else 0#8
  b := if operandCount (s.memRead s.pc) = 2 then s.memRead (s.pc + 2#8) else 0#8

/-- Fetch and decode (R81 to R84). -/
def fetchDecode (m : OpcodeMap) (s : State) : Decoded := decodeParts m (fetch s).ir (fetch s).a (fetch s).b

/-- The register an operand byte names: only 0 to 7 are valid, and no high bit is dropped (R64). -/
def regOperand (b : Byte) : Option RegIdx := if h : b.toNat < 8 then some ⟨b.toNat, h⟩ else none

/-- The register-operand check: with a byte of 8 or more the step is the InvalidRegister halt and nothing else; otherwise
the handler goes on with the register (R85, R142). -/
def withReg (s : State) (b : Byte) (k : RegIdx → Host.Outcome State Fault Refusal) :
    Host.Outcome State Fault Refusal :=
  match regOperand b with
  | none => .next (s.raiseInvalidRegister b)
  | some r => k r

end Sys2Proof.Machine
end

