-- ==== Sys2Proof/Machine/Flags.lean ====
section
/-! DEFINITION. What the ALU computes. There is no flag register and no condition code, so a result is its byte and nothing
else: no carry, zero or overflow is computed anywhere (10_state.md R25, 41_alu.md R100, R103). -/
namespace Sys2Proof.Machine

/-- The operation codes the ALU contract distinguishes: its two operations, and every other one (R100). -/
inductive AluOp where
  | add
  | mul
  /-- any operation that is not ADD or MUL: a no-op the decoder never reaches (R100, D10) -/
  | other
  deriving DecidableEq, Repr

/-- The unsigned sum of two bytes, computed exactly and reduced mod 256 (R101, R103). -/
def aluAdd (u v : Byte) : Byte := BitVec.ofNat 8 (u.toNat + v.toNat)

/-- The low 8 bits of the 16-bit unsigned product (R102, R103). -/
def aluMul (u v : Byte) : Byte := BitVec.ofNat 8 (u.toNat * v.toNat)

/-- `ALU.apply(op, A, B)`: both registers are read, then `x[A]` is written; no flag, no error (R100). -/
def aluApply (op : AluOp) (ra rb : RegIdx) (s : State) : State :=
  match op with
  | .add => s.setReg ra (aluAdd (s.getReg ra) (s.getReg rb))
  | .mul => s.setReg ra (aluMul (s.getReg ra) (s.getReg rb))
  | .other => s

end Sys2Proof.Machine
end

