-- ==== Sys2Proof/Machine/Alu.lean ====
section
/-! DEFINITION. The ALU instructions ADD and MUL (41_alu.md). -/
namespace Sys2Proof.Machine

/-- ADD Ra,Rb (R101): `ALU.apply(ADD, a, b)`, then the common advance. -/
def execAdd (a b : Byte) (s : State) : Host.Outcome State Fault Refusal :=
  withReg s a fun ra => withReg s b fun rb => .next ((aluApply .add ra rb s).advance .add)

/-- MUL Ra,Rb (R102): `ALU.apply(MUL, a, b)`, then the common advance. -/
def execMul (a b : Byte) (s : State) : Host.Outcome State Fault Refusal :=
  withReg s a fun ra => withReg s b fun rb => .next ((aluApply .mul ra rb s).advance .mul)

end Sys2Proof.Machine
end

