-- ==== Sys2Proof/Machine/Stack.lean ====
section
/-! DEFINITION. The stack instructions PUSH and POP (43_stack.md): full-descending, no limit check, SP wraps (R120). -/
namespace Sys2Proof.Machine

/-- The push of R120 and R9: decrement SP, then store at the new SP the value `v` has in the state after the decrement. -/
def pushValue (v : State → Byte) (s : State) : State := s.decSp.memWrite s.decSp.sp (v s.decSp)

/-- PUSH Ra (R121): the register is read after the decrement, so PUSH R7 stores the new SP. -/
def execPush (a : Byte) (s : State) : Host.Outcome State Fault Refusal :=
  withReg s a fun ra => .next ((pushValue (fun t => t.getReg ra) s).advance .push)

/-- POP Ra (R122): the popped byte goes into the register first and the increment applies after it, so POP R7 leaves the
popped byte plus 1. -/
def execPop (a : Byte) (s : State) : Host.Outcome State Fault Refusal :=
  withReg s a fun ra => .next ((s.setReg ra (s.memRead s.sp)).incSp.advance .pop)

end Sys2Proof.Machine
end

