-- ==== Sys2Proof/Machine/Control.lean ====
section
/-! DEFINITION. Control transfer: CALL and RET (44_control.md). They set `pc` themselves and skip the common advance. -/
namespace Sys2Proof.Machine

/-- The address immediately after a CALL at `pc` (R130). -/
def returnAddress (s : State) : Byte := s.pc + 2#8

/-- CALL Ra (R130): push the return address, then jump to the register as it is after the push, so CALL R7 jumps to the
decremented SP. -/
def execCall (a : Byte) (s : State) : Host.Outcome State Fault Refusal :=
  withReg s a fun ra =>
    .next ((pushValue (fun _ => returnAddress s) s).setPc ((pushValue (fun _ => returnAddress s) s).getReg ra))

/-- RET (R131): `pc <- MemRead(SP, 1)`, then `SP <- (SP + 1) mod 256`. -/
def execRet (s : State) : Host.Outcome State Fault Refusal :=
  .next (s.setPc (s.memRead s.sp)).incSp

end Sys2Proof.Machine
end

