-- ==== Sys2Proof/Machine/RegisterIO.lean ====
section
/-! DEFINITION. Register load, output and halt: LDI, PRN and HLT (42_register_io.md). -/
namespace Sys2Proof.Machine

/-- LDI Ra,imm (R110): `x[a] <- b`; the immediate is never checked. -/
def execLdi (a imm : Byte) (s : State) : Host.Outcome State Fault Refusal :=
  withReg s a fun ra => .next ((s.setReg ra imm).advance .ldi)

/-- PRN Ra (R111): `emit(x[a])`. -/
def execPrn (a : Byte) (s : State) : Host.Outcome State Fault Refusal :=
  withReg s a fun ra => .next ((s.emit (s.getReg ra)).advance .prn)

/-- HLT (R112): `halt(HLT)`, and the common advance, since HLT is not CALL or RET (R87, D7). -/
def execHlt (s : State) : Host.Outcome State Fault Refusal :=
  .next ((s.halt .hlt).advance .hlt)

end Sys2Proof.Machine
end

