-- ==== Sys2Proof/Machine/Cycle.lean ====
section
/-! DEFINITION. The fetch-decode-execute step of 40_engine_cycle.md R88, for any opcode map (R5, R35). -/
namespace Sys2Proof.Machine

/-- What a Running engine does with what it fetched and decoded: the InvalidOpcode halt (R84), or the instruction. -/
def runDecoded (s : State) : Decoded → Host.Outcome State Fault Refusal
  | .reject _ => .next (s.raiseInvalidOpcode (fetch s).ir)
  | .instr i => exec i s

/-- One step (R88), for the opcode map `m`. A step exists only in Running (R80): elsewhere the machine is stuck, under a
name: DESIGN CHOICE (log 1), safe. -/
def engineStep (m : OpcodeMap) (s : State) : Host.Outcome State Fault Refusal :=
  match s.run with
  | .heldInReset => .fault .heldInReset
  | .halted => .fault .halted
  | .running => runDecoded s (fetchDecode m s)

end Sys2Proof.Machine
end

