-- ==== Sys2Proof/Machine/Step.lean ====
section
/-! DEFINITION. The machine's step, with the default opcode map, and the placing of a word where it fetches. -/
namespace Sys2Proof.Machine

/-- One step of the machine (R88), with the default `OPCODE_MAP` of R5. -/
def step (s : State) : Host.Outcome State Fault Refusal := engineStep defaultOpcodeMap s

/-- `s` with an opcode-table word stored where `step` fetches its next instruction, three bytes from `pc`, and the engine
Running. It stands for the load phase (R161; log 8). -/
def State.withFetchWord (s : State) (nbits w : Nat) : State := s.placeWord nbits w

end Sys2Proof.Machine
end

