-- ==== Sys2Proof/Machine/Ports.lean ====
section
/-! DEFINITION. The block's ports (10_state.md R33): reset, the load phase and the start (70_reset_and_hazards.md R160 to
R163), the status ports and the output port. They act between instructions; `step` does not read them. -/
namespace Sys2Proof.Machine

/-- The input ports as the block samples them (R33). `clk` is left out: the model has no time (R168). -/
structure InputPorts where
  rst : Bool
  loadWe : Bool
  loadAddr : Byte
  loadData : Byte
  loadCount : BitVec 9
  deriving DecidableEq, Repr

/-- The state reset gives: the column "after reset, before load" of R34's table (R160). Nothing of the state before it is
kept. -/
def heldState : State := { State.reset with run := .heldInReset }

/-- The load port during reset: with `load_we = 1`, `mem[load_addr] <- load_data`; the value on `load_count` is latched
(R161). -/
def loadPort (p : InputPorts) (s : State) : State :=
  { (if p.loadWe then s.memWrite p.loadAddr p.loadData else s) with loadCount := p.loadCount }

/-- The fall of `rst`: the block is Running at `pc = 0`, everything else as reset and the load phase left it (R162). -/
def startRunning (s : State) : State := { s with run := .running, pc := Config.pcReset }

/-- What sampling the input ports does to the state. With `rst = 1`: reset from any state (R160), once, so that the bytes
the loader writes while `rst` stays 1 are kept, and the load port (R161). With `rst = 0`: the start if `rst` has just
fallen (R162); otherwise nothing, `load_we` being ignored (R161). DEDUCED (log 6), unsafe. -/
def sampleInputs (p : InputPorts) (s : State) : State :=
  if p.rst then loadPort p (if s.run = .heldInReset then s else heldState)
  else if s.run = .heldInReset then startRunning s
  else s

/-- The load cycles of a loader as R161 describes it: the bytes of the program at ascending addresses from `a`, with
`count` on `load_count`. -/
def loadCycles (count : BitVec 9) (a : Byte) : List Byte → List InputPorts
  | [] => []
  | v :: rest =>
    { rst := true, loadWe := true, loadAddr := a, loadData := v, loadCount := count } :: loadCycles count (a + 1#8) rest

/-- All the host drives to run a program: reset, the load cycles, and the release of reset (R160 to R162). -/
def hostLoad (program : List Byte) : List InputPorts :=
  { rst := true, loadWe := false, loadAddr := 0#8, loadData := 0#8, loadCount := BitVec.ofNat 9 program.length } ::
  loadCycles (BitVec.ofNat 9 program.length) Config.loadBase program ++
  [{ rst := false, loadWe := false, loadAddr := 0#8, loadData := 0#8, loadCount := 0#9 }]

/-- Sample a sequence of input values. -/
def sampleAll (ps : List InputPorts) (s : State) : State := ps.foldl (fun t p => sampleInputs p t) s

/-- The launch state of R163 for a program of at most 256 bytes: the bytes from `LOAD_BASE` on, every other cell 0x00.
A longer program wraps: DESIGN CHOICE (log 7), unsafe. -/
def launch (program : List Byte) : State :=
  { State.reset.storeBytes Config.loadBase program with loadCount := BitVec.ofNat 9 program.length }

/-- The 2-bit code of a halt reason (R27). -/
def HaltReason.code : HaltReason → BitVec 2
  | .none => 0#2
  | .hlt => 1#2
  | .invalidOpcode => 2#2
  | .invalidRegister => 3#2

/-- The status ports (R33). -/
structure StatusPorts where
  running : Bool
  halted : Bool
  haltReason : BitVec 2
  errPc : Byte
  errByte : Byte
  deriving DecidableEq, Repr

/-- What the status ports show of a state (R33). -/
def statusPorts (s : State) : StatusPorts where
  running := s.run = .running
  halted := s.run = .halted
  haltReason := s.haltReason.code
  errPc := s.errPc
  errByte := s.errByte

/-- What the output port shows of the transition from `s` to `t`: `some v` is one pulse of `out_valid` with
`out_data = v`, `none` no pulse (R29, R33). DEDUCED (log 11), safe. -/
def outPort (s t : State) : Option Byte := t.out[s.out.length]?

end Sys2Proof.Machine
end

