-- ==== Sys2Proof/Safety.lean ====
section
/-! DEFINITION. The terms claims are stated in: the invariant of the machine, the register table of 10_state.md R21, and
balanced stack code (43_stack.md R123). -/
namespace Sys2Proof.Machine

/-- Every register but those listed is unchanged. -/
abbrev RegsSameBut (rs : List RegIdx) (s t : State) : Prop := ∀ r, r ∉ rs → t.getReg r = s.getReg r

/-- Every byte of memory reads as before. -/
abbrev MemSame (s t : State) : Prop := ∀ a, t.memRead a = s.memRead a

/-- Every byte of memory but the one at `a` reads as before. -/
abbrev MemSameBut (a : Byte) (s t : State) : Prop := ∀ b, b ≠ a → t.memRead b = s.memRead b

/-- The diagnostic registers and the load-count latch are unchanged. -/
abbrev DiagSame (s t : State) : Prop := t.errPc = s.errPc ∧ t.errByte = s.errByte ∧ t.loadCount = s.loadCount

/-- The engine status is unchanged: run state, halt reason, diagnostic registers, load-count latch. -/
abbrev StatusSame (s t : State) : Prop := t.run = s.run ∧ t.haltReason = s.haltReason ∧ DiagSame s t

/-- The state an InvalidRegister halt on the operand byte `r` leaves: four fields of `s` changed (R142). -/
abbrev invalidRegisterState (s : State) (r : Byte) : State :=
  { s with run := .halted, haltReason := .invalidRegister, errPc := s.pc, errByte := r }

/-- The state an InvalidOpcode halt on the instruction byte `ir` leaves: four fields of `s` changed (R141). -/
abbrev invalidOpcodeState (s : State) (ir : Byte) : State :=
  { s with run := .halted, haltReason := .invalidOpcode, errPc := s.pc, errByte := ir }

/-- The diagnostic registers are as reset leaves them (R28). -/
abbrev ErrClear (s : State) : Prop := s.errPc = 0#8 ∧ s.errByte = 0#8

/-- The record of a HLT halt: nothing in the diagnostic registers, and `pc` just past a HLT byte (R112, R140). -/
abbrev HltRecord (m : OpcodeMap) (s : State) : Prop :=
  s.haltReason = .hlt ∧ ErrClear s ∧ m.lookup (s.memRead (s.pc - 1#8)) = some .hlt

/-- The record of an InvalidOpcode halt: `pc` at the byte reported, which is no instruction (R141). -/
abbrev InvalidOpcodeRecord (m : OpcodeMap) (s : State) : Prop :=
  s.haltReason = .invalidOpcode ∧ s.errPc = s.pc ∧ s.errByte = s.memRead s.pc ∧ m.lookup s.errByte = none

/-- The record of an InvalidRegister halt: `pc` at the instruction, and the first of its register operands that is 8 or
more is the byte reported (R142, R143). -/
abbrev InvalidRegisterRecord (m : OpcodeMap) (s : State) : Prop :=
  s.haltReason = .invalidRegister ∧ s.errPc = s.pc ∧
  ∃ op ∈ Opcode.all, m.lookup (s.memRead s.pc) = some op ∧
    (op.regOperands (fetch s).a (fetch s).b).find? (fun r => !validRegByte r) = some s.errByte

/-- What a run from reset keeps: memory in its canonical form; no halt reason and no diagnostic while Running; the reset
values of R34 while held in reset; and in Halted a record that agrees with the bytes at `pc` (R27, R28, R34, R140). -/
abbrev Inv (m : OpcodeMap) (s : State) : Prop :=
  s.mem.wf ∧
  (s.run = .running → s.haltReason = .none ∧ ErrClear s) ∧
  (s.run = .heldInReset →
    s.haltReason = .none ∧ ErrClear s ∧ s.x = resetRegs ∧ s.pc = Config.pcReset ∧ s.out = []) ∧
  (s.run = .halted → HltRecord m s ∨ InvalidOpcodeRecord m s ∨ InvalidRegisterRecord m s)

/-- The registers an instruction reads (R21). -/
def Instr.regReads : Instr → List RegIdx
  | .ldi _ _ | .hlt => []
  | .prn a => (regOperand a).toList
  | .add a b | .mul a b => (regOperand a).toList ++ (regOperand b).toList
  | .push a | .call a => Config.spIndex :: (regOperand a).toList
  | .pop _ | .ret => [Config.spIndex]

/-- The registers an instruction writes (R21). -/
def Instr.regWrites : Instr → List RegIdx
  | .prn _ | .hlt => []
  | .ldi a _ | .add a _ | .mul a _ => (regOperand a).toList
  | .pop a => (regOperand a).toList ++ [Config.spIndex]
  | .push _ | .call _ | .ret => [Config.spIndex]

/-- The registers the step from a state reads: those of the instruction it fetches, none if it fetches no instruction. -/
def readsAt (m : OpcodeMap) (s : State) : List RegIdx :=
  match fetchDecode m s with
  | .instr i => Instr.regReads i
  | .reject _ => []

/-- The registers the step from a state may write. -/
def writesAt (m : OpcodeMap) (s : State) : List RegIdx :=
  match fetchDecode m s with
  | .instr i => Instr.regWrites i
  | .reject _ => []

/-- Run instructions one after the other, whatever `pc` says. -/
def execAll : List Instr → State → Host.Outcome State Fault Refusal
  | [], s => .next s
  | i :: rest, s =>
    match exec i s with
    | .next t => execAll rest t
    | .fault f => .fault f
    | .refused r => .refused r

/-- An instruction that leaves SP, the stack cells and the run state alone: LDI, ADD or MUL into a register other than R7,
or PRN, on valid registers (R21, R44). -/
def StackNeutral : Instr → Bool
  | .ldi a _ => validRegByte a && a != regByte Config.spIndex
  | .add a b | .mul a b => validRegByte a && validRegByte b && a != regByte Config.spIndex
  | .prn a => validRegByte a
  | .hlt | .ret | .push _ | .pop _ | .call _ => false

/-- `Balanced k l`: in the instruction sequence `l` every pop (POP, or RET) takes the byte of a push before it (PUSH, or
CALL), nothing else writes R7 (`PUSH R7` and `POP R7` are excluded), and at most `k` bytes are pushed beyond its start:
the conditions of R123. -/
inductive Balanced : Nat → List Instr → Prop where
  | nil : Balanced 0 []
  | neutral {k : Nat} {l : List Instr} (i : Instr) (h : StackNeutral i = true) (hl : Balanced k l) : Balanced k (i :: l)
  | pushPop {k j : Nat} {body rest : List Instr} (a b : RegIdx) (ha : a ≠ Config.spIndex) (hb : b ≠ Config.spIndex)
      (hbody : Balanced k body) (hrest : Balanced j rest) :
      Balanced (max (k + 1) j) (.push (regByte a) :: (body ++ .pop (regByte b) :: rest))
  | callRet {k j : Nat} {body rest : List Instr} (a : RegIdx)
      (hbody : Balanced k body) (hrest : Balanced j rest) :
      Balanced (max (k + 1) j) (.call (regByte a) :: (body ++ .ret :: rest))

end Sys2Proof.Machine
end

