-- ==== Sys2Proof/Certificates/Slice0/Obligations.lean ====
section
/-! DEFINITION. The statements for the provers. Each docstring names the rules of spec/ the statement formalises.
`regByte r` is the operand byte of register `r`, so a statement over all `r` is one over all valid operand bytes; the bytes
8 to 255 are stated too, as the InvalidRegister halt they take. -/
open Sys2Proof Sys2Proof.Machine

/-! ### Encoding -/

/-- Nine instruction words written out bit by bit from the encodings of R66, R110 to R131, and what they decode to. The
words of ADD, MUL, PUSH, POP, CALL and RET are the default map's, which the spec takes from general knowledge (log 3). -/
def Obligations.SampleWordsDecode : Prop :=
  decode defaultOpcodeMap [0b00000001#8] = (.instr .hlt, []) ∧
  decode defaultOpcodeMap [0b00010001#8] = (.instr .ret, []) ∧
  decode defaultOpcodeMap [0b01000101#8, 0b00000011#8] = (.instr (.push 3#8), []) ∧
  decode defaultOpcodeMap [0b01000110#8, 0b00000111#8] = (.instr (.pop 7#8), []) ∧
  decode defaultOpcodeMap [0b01000111#8, 0b00000000#8] = (.instr (.prn 0#8), []) ∧
  decode defaultOpcodeMap [0b01010000#8, 0b00000001#8] = (.instr (.call 1#8), []) ∧
  decode defaultOpcodeMap [0b10000010#8, 0b00000000#8, 0b00001000#8] = (.instr (.ldi 0#8 8#8), []) ∧
  decode defaultOpcodeMap [0b10100000#8, 0b00000010#8, 0b00000101#8] = (.instr (.add 2#8 5#8), []) ∧
  decode defaultOpcodeMap [0b10100010#8, 0b00000110#8, 0b00000100#8] = (.instr (.mul 6#8 4#8), [])

/-- R66: the decoder recognises exactly these nine bytes, each with the count and format of its row, and the default map
meets the constraints R66 puts on a map. The six values from general knowledge are the spec's own default (log 3). -/
def Obligations.DecoderRecognisesExactlyNineBytes : Prop :=
  (∀ ir op, defaultOpcodeMap.lookup ir = some op ↔
    (ir, op) ∈ [(0x01#8, Opcode.hlt), (0x11#8, .ret), (0x45#8, .push), (0x46#8, .pop), (0x47#8, .prn), (0x50#8, .call),
      (0x82#8, .ldi), (0xA0#8, .add), (0xA2#8, .mul)]) ∧
  (∀ op a b, op ∈ [Opcode.hlt, .ret] → op.count = 0 ∧ op.format = .n ∧ (op.assemble a b).operands = []) ∧
  (∀ op a b, op ∈ [Opcode.push, .pop, .prn, .call] →
    op.count = 1 ∧ op.format = .r ∧ (op.assemble a b).operands = [a] ∧ (op.assemble a b).regOperands = [a]) ∧
  (∀ op a b, op ∈ [Opcode.add, .mul] →
    op.count = 2 ∧ op.format = .rr ∧ (op.assemble a b).operands = [a, b] ∧ (op.assemble a b).regOperands = [a, b]) ∧
  (∀ a b, Opcode.ldi.count = 2 ∧ Opcode.ldi.format = .ri ∧
    (Opcode.ldi.assemble a b).operands = [a, b] ∧ (Opcode.ldi.assemble a b).regOperands = [a]) ∧
  defaultOpcodeMap.Legal

/-- R67: every other byte is an invalid opcode, 62, 60, 61 and 64 of them by count and 247 in all, 0x00 and the bytes R67
lists among them, and executing one halts with InvalidOpcode. -/
def Obligations.EveryOtherByteIsInvalid : Prop :=
  (∀ ir, ir ∉ [0x01#8, 0x11#8, 0x45#8, 0x46#8, 0x47#8, 0x50#8, 0x82#8, 0xA0#8, 0xA2#8] →
    defaultOpcodeMap.lookup ir = none ∧
    ∀ s : State, s.run = .running → s.memRead s.pc = ir → step s = .next (invalidOpcodeState s ir)) ∧
  (∀ c n, (c, n) ∈ [(0, 62), (1, 60), (2, 61), (3, 64)] →
    ((List.range 256).countP fun k =>
      operandCount (BitVec.ofNat 8 k) = c ∧ defaultOpcodeMap.lookup (BitVec.ofNat 8 k) = none) = n) ∧
  ((List.range 256).countP fun k => defaultOpcodeMap.lookup (BitVec.ofNat 8 k) = none) = 247 ∧
  (∀ ir ∈ [0x00#8, 0xA1#8, 0xA3#8, 0xA4#8, 0xA7#8, 0xA8#8, 0xAA#8, 0xAB#8, 0x69#8, 0xAC#8, 0xAD#8, 0x65#8, 0x66#8, 0x54#8,
    0x55#8, 0x56#8, 0x83#8, 0x84#8, 0x48#8, 0x52#8, 0x13#8], defaultOpcodeMap.lookup ir = none)

/-- Decode of encode is the instruction, for every legal opcode map, every instruction with every operand byte, and
whatever bytes follow (R69, R71). -/
def Obligations.DecodeOfEncodeIsTheInstruction : Prop :=
  ∀ (m : OpcodeMap), m.Legal → ∀ (i : Instr) (rest : List Byte), decode m (encode m i ++ rest) = (.instr i, rest)

/-- The other direction: bytes that decode to an instruction are its encoding, followed by the bytes left over. -/
def Obligations.DecodedBytesAreTheEncoding : Prop :=
  ∀ (m : OpcodeMap), m.Legal → ∀ (bytes rest : List Byte) (i : Instr),
    decode m bytes = (.instr i, rest) → bytes = encode m i ++ rest

/-- R61: the count is bits 7 to 6 of the instruction byte alone; a valid instruction is count + 1 bytes long; count 3
belongs to no instruction and leaves `pc` unchanged. -/
def Obligations.LengthFromTopTwoBits : Prop :=
  (∀ ir : Byte, operandCount ir = ir.toNat / 64) ∧
  ∀ m : OpcodeMap, m.Legal →
    (∀ i : Instr, (encode m i).length = operandCount (m.byteOf i.opcode) + 1 ∧
      (encode m i).head? = some (m.byteOf i.opcode)) ∧
    (∀ ir, operandCount ir = 3 → m.lookup ir = none) ∧
    (∀ s : State, s.run = .running → operandCount (s.memRead s.pc) = 3 →
      ∃ t, engineStep m s = .next t ∧ t.pc = s.pc)

/-! ### Fetch and the step -/

/-- R81, R82 and R83: what a step fetches; the count is the top two bits; the operand addresses wrap mod 256, and an operand the count does not ask
for is 0. -/
def Obligations.FetchByCountWithWrap : Prop :=
  ∀ s : State,
    (fetch s).ir = s.memRead s.pc ∧ operandCount (s.memRead s.pc) = (s.memRead s.pc).toNat / 64 ∧
    (fetch s).a = (if operandCount (s.memRead s.pc) ≥ 1 then s.memRead (BitVec.ofNat 8 ((s.pc.toNat + 1) % 256)) else 0#8) ∧
    (fetch s).b = (if operandCount (s.memRead s.pc) = 2 then s.memRead (BitVec.ofNat 8 ((s.pc.toNat + 2) % 256)) else 0#8)

/-- A Running step runs the instruction it decodes (R86, R88): when fetch and decode give `i`, and when the bytes from `pc`
on are the encoding of `i` under a legal map. The machine's step is the one for the default map. -/
def Obligations.StepRunsTheDecodedInstruction : Prop :=
  (∀ s, step s = engineStep defaultOpcodeMap s) ∧
  ∀ (m : OpcodeMap) (s : State) (i : Instr), s.run = .running →
    (fetchDecode m s = .instr i → engineStep m s = exec i s) ∧
    (m.Legal → (∀ (k : Nat) (v : Byte), (encode m i)[k]? = some v → s.memRead (s.pc + BitVec.ofNat 8 k) = v) →
      fetchDecode m s = .instr i ∧ engineStep m s = exec i s)

/-- A word placed by the host's `withFetchWord` is the word the next step decodes and runs. -/
def Obligations.PlacedWordIsRun : Prop :=
  ∀ (s : State) (nbits w : Nat) (i : Instr), s.mem.wf → decodeTableWord nbits w = some i →
    step (s.withFetchWord nbits w) = exec i (s.withFetchWord nbits w)

/-- R141 and R84: an instruction byte that is not in the opcode map is the InvalidOpcode halt, exactly four fields
changing, whatever the map, and the status ports report it. -/
def Obligations.UnknownByteTakesInvalidOpcodeHalt : Prop :=
  ∀ (m : OpcodeMap) (s : State), s.run = .running → m.lookup (s.memRead s.pc) = none → ∃ t,
    engineStep m s = .next t ∧
    t = { s with run := .halted, haltReason := .invalidOpcode, errPc := s.pc, errByte := s.memRead s.pc } ∧
    statusPorts t = { running := false, halted := true, haltReason := 2#2, errPc := s.pc, errByte := s.memRead s.pc }

/-- R85, R142 and R143: the opcode is decided first, then operand A, then operand B; the first register operand of 8 or
more is the InvalidRegister halt, exactly four fields changing, before the handler runs; HLT meets neither. -/
def Obligations.RegisterOperandsCheckedInOrder : Prop :=
  ∀ (m : OpcodeMap) (s : State), s.run = .running →
    (m.lookup (fetch s).ir = none → engineStep m s = .next (invalidOpcodeState s (fetch s).ir)) ∧
    (∀ op, m.lookup (fetch s).ir = some op → op ∈ [Opcode.ldi, .prn, .push, .pop, .call, .add, .mul] →
      8 ≤ (fetch s).a.toNat →
      engineStep m s = .next { s with run := .halted, haltReason := .invalidRegister, errPc := s.pc, errByte := (fetch s).a }) ∧
    (∀ op, m.lookup (fetch s).ir = some op → op ∈ [Opcode.add, .mul] →
      (fetch s).a.toNat < 8 → 8 ≤ (fetch s).b.toNat →
      engineStep m s = .next { s with run := .halted, haltReason := .invalidRegister, errPc := s.pc, errByte := (fetch s).b }) ∧
    (m.lookup (fetch s).ir = some .hlt → ∃ t, engineStep m s = .next t ∧ t.haltReason = .hlt) ∧
    HaltReason.invalidRegister.code = 3#2

/-- R140: a Running step leaves Running for exactly three reasons, each with its code and its records; otherwise the engine
status is as it was. -/
def Obligations.EngineHaltsForThreeReasonsOnly : Prop :=
  ∀ (m : OpcodeMap) (s : State), s.run = .running → ∃ t, engineStep m s = .next t ∧
    ((t.run = .running ∧ StatusSame s t) ∨
     (t.run = .halted ∧ t.haltReason.code = 1#2 ∧ fetchDecode m s = .instr .hlt ∧ t.pc = s.pc + 1#8 ∧ DiagSame s t) ∨
     (t.run = .halted ∧ t.haltReason.code = 2#2 ∧ m.lookup (fetch s).ir = none ∧
       t.errPc = s.pc ∧ t.errByte = (fetch s).ir ∧ t.pc = s.pc) ∨
     (t.run = .halted ∧ t.haltReason.code = 3#2 ∧ t.errPc = s.pc ∧ t.pc = s.pc ∧
       ∃ i, fetchDecode m s = .instr i ∧ t.errByte ∈ i.regOperands ∧ 8 ≤ t.errByte.toNat))

/-- R80: a step exists exactly in Running; in Halted the state stays as it is until reset; none exists while `rst = 1`. -/
def Obligations.StepExistsExactlyWhileRunning : Prop :=
  (∀ (m : OpcodeMap) (s : State), (∃ t, engineStep m s = .next t) ↔ s.run = .running) ∧
  (∀ (p : InputPorts) (s : State), s.run = .halted → p.rst = false → sampleInputs p s = s) ∧
  (∀ (p : InputPorts) (s t : State) (m : OpcodeMap), p.rst = true → engineStep m (sampleInputs p s) ≠ .next t)

/-- R87: after every handler but those of CALL and RET `pc` advances by the fetched byte's count + 1; CALL and RET set it
themselves; a halt on an invalid opcode or register does not advance. -/
def Obligations.PcAdvancesByLengthExceptCallRet : Prop :=
  ∀ (m : OpcodeMap) (s t : State), m.Legal → s.run = .running → engineStep m s = .next t →
    (∀ i, fetchDecode m s = .instr i → i.wellFormed = true → i.opcode ≠ .call → i.opcode ≠ .ret →
      t.pc = BitVec.ofNat 8 ((s.pc.toNat + operandCount (fetch s).ir + 1) % 256)) ∧
    (∀ r, fetchDecode m s = .instr (.call (regByte r)) → t.pc = s.decSp.getReg r) ∧
    (fetchDecode m s = .instr .ret → t.pc = s.memRead s.sp) ∧
    (∀ i, fetchDecode m s = .instr i → i.wellFormed = false → t.pc = s.pc) ∧
    (∀ e, fetchDecode m s = .reject e → t.pc = s.pc)

/-- R90: a step writes no register but those its handler names (`Instr.regWrites`, the table of R21), so not register 4
unless an operand names it. -/
def Obligations.StepWritesOnlyTheNamedRegisters : Prop :=
  ∀ (m : OpcodeMap) (s t : State), engineStep m s = .next t →
    (∀ r, r ∉ writesAt m s → t.getReg r = s.getReg r) ∧
    ((∀ i, fetchDecode m s = .instr i → regByte 4 ∉ i.regOperands) → t.getReg 4 = s.getReg 4)

/-- R91: a step depends on `pc`, memory, the registers its handler reads (R21) and `run` alone. Two Running states that
agree on those step to states that agree on `pc`, memory, `run`, the registers written, the emitted bytes, and on halting
the reason and diagnostic registers as far as the step writes them; what it does not write, it leaves. -/
def Obligations.StepReadsOnlyPcMemoryNamedRegistersAndRun : Prop :=
  ∀ (m : OpcodeMap) (s t : State), s.run = .running → t.run = .running → t.pc = s.pc → t.mem = s.mem →
    (∀ r ∈ readsAt m s, t.getReg r = s.getReg r) →
    ∃ s' t', engineStep m s = .next s' ∧ engineStep m t = .next t' ∧
      t'.pc = s'.pc ∧ t'.mem = s'.mem ∧ t'.run = s'.run ∧
      (∀ r ∈ writesAt m s, t'.getReg r = s'.getReg r) ∧
      RegsSameBut (writesAt m s) s s' ∧ RegsSameBut (writesAt m s) t t' ∧
      (∃ e, s'.out = s.out ++ e ∧ t'.out = t.out ++ e) ∧
      ((StatusSame s s' ∧ StatusSame t t') ∨
       (t'.haltReason = .hlt ∧ s'.haltReason = .hlt ∧ DiagSame s s' ∧ DiagSame t t') ∨
       (t'.haltReason = s'.haltReason ∧ t'.errPc = s'.errPc ∧ t'.errByte = s'.errByte))

/-- The load-count latch is read by no rule (R31, R161): changing it changes nothing else of any step. That the latch is
in State is log 4. -/
def Obligations.LoadCountIsNeverRead : Prop :=
  ∀ (m : OpcodeMap) (s : State) (c : BitVec 9), s.run = .running → ∃ t,
    engineStep m s = .next t ∧ t.loadCount = s.loadCount ∧
    engineStep m { s with loadCount := c } = .next { t with loadCount := c }

/-- A step changes memory only by PUSH and CALL, and only the byte below SP (R44). -/
def Obligations.OnlyPushAndCallWriteMemory : Prop :=
  ∀ (m : OpcodeMap) (s t : State) (a : Byte), engineStep m s = .next t → t.memRead a ≠ s.memRead a →
    a = s.sp - 1#8 ∧ ∃ r, fetchDecode m s = .instr (.push (regByte r)) ∨ fetchDecode m s = .instr (.call (regByte r))

/-- R29: `out` is empty after reset, a step appends the byte of a PRN, with its pulse on the output port, and nothing else
changes it. -/
def Obligations.OutputGrowsOnlyByPrn : Prop :=
  State.reset.out = [] ∧
  (∀ (p : InputPorts) (s : State), p.rst = true → s.run ≠ .heldInReset → (sampleInputs p s).out = []) ∧
  (∀ (p : InputPorts) (s : State), p.rst = false ∨ s.run = .heldInReset → (sampleInputs p s).out = s.out) ∧
  ∀ (m : OpcodeMap) (s t : State), engineStep m s = .next t →
    (∀ r, fetchDecode m s = .instr (.prn (regByte r)) →
      t.out = s.out ++ [s.getReg r] ∧ outPort s t = some (s.getReg r)) ∧
    ((∀ r, fetchDecode m s ≠ .instr (.prn (regByte r))) → t.out = s.out ∧ outPort s t = none)

/-! ### The instructions -/

/-- R101: ADD, in every form: the sum mod 256, nothing else but `pc` changing, R7 as destination included; the
InvalidRegister halts; the encoding, its byte the spec's default from general knowledge (log 3). -/
def Obligations.AddWritesTheSumMod256 : Prop :=
  (∀ (s : State) (ra rb : RegIdx), ∃ t, exec (.add (regByte ra) (regByte rb)) s = .next t ∧
    (t.getReg ra).toNat = ((s.getReg ra).toNat + (s.getReg rb).toNat) % 256 ∧ t.pc = s.pc + 3#8 ∧
    RegsSameBut [ra] s t ∧ MemSame s t ∧ StatusSame s t ∧ t.out = s.out) ∧
  (∀ (s : State) (a b : Byte), 8 ≤ a.toNat → exec (.add a b) s = .next (invalidRegisterState s a)) ∧
  (∀ (s : State) (a b : Byte), a.toNat < 8 → 8 ≤ b.toNat → exec (.add a b) s = .next (invalidRegisterState s b)) ∧
  (∀ a b : Byte, encode defaultOpcodeMap (.add a b) = [0b10100000#8, a, b])

/-- R102: MUL, in every form: the low 8 bits of the product, nothing else but `pc` changing; the InvalidRegister halts; the
encoding, its byte the spec's default from general knowledge (log 3). -/
def Obligations.MulWritesTheProductMod256 : Prop :=
  (∀ (s : State) (ra rb : RegIdx), ∃ t, exec (.mul (regByte ra) (regByte rb)) s = .next t ∧
    (t.getReg ra).toNat = ((s.getReg ra).toNat * (s.getReg rb).toNat) % 256 ∧ t.pc = s.pc + 3#8 ∧
    RegsSameBut [ra] s t ∧ MemSame s t ∧ StatusSame s t ∧ t.out = s.out) ∧
  (∀ (s : State) (a b : Byte), 8 ≤ a.toNat → exec (.mul a b) s = .next (invalidRegisterState s a)) ∧
  (∀ (s : State) (a b : Byte), a.toNat < 8 → 8 ≤ b.toNat → exec (.mul a b) s = .next (invalidRegisterState s b)) ∧
  (∀ a b : Byte, encode defaultOpcodeMap (.mul a b) = [0b10100010#8, a, b])

/-- The ALU contract (R100): ADD and MUL write `x[A]` alone, from both registers as they were; any other operation has no
effect. -/
def Obligations.AluWritesOnlyItsDestination : Prop :=
  ∀ (s : State) (ra rb : RegIdx),
    aluApply .other ra rb s = s ∧
    (∀ op, aluApply op ra rb s = { s with x := (aluApply op ra rb s).x } ∧ RegsSameBut [ra] s (aluApply op ra rb s)) ∧
    ((aluApply .add ra rb s).getReg ra).toNat = ((s.getReg ra).toNat + (s.getReg rb).toNat) % 256 ∧
    ((aluApply .mul ra rb s).getReg ra).toNat = ((s.getReg ra).toNat * (s.getReg rb).toNat) % 256

/-- Arithmetic does not depend on signedness and is commutative in its values (R103). -/
def Obligations.ArithmeticIgnoresSign : Prop :=
  ∀ u v : Byte,
    (aluAdd u v).toInt = (u.toInt + v.toInt).bmod 256 ∧ (aluMul u v).toInt = (u.toInt * v.toInt).bmod 256 ∧
    aluAdd u v = aluAdd v u ∧ aluMul u v = aluMul v u

/-- R110: LDI, in every form: the immediate goes into the register, R7 included, whatever it held; the immediate is never
checked; the InvalidRegister halt; the encoding. -/
def Obligations.LdiLoadsTheImmediate : Prop :=
  (∀ (s : State) (ra : RegIdx) (imm : Byte), ∃ t, exec (.ldi (regByte ra) imm) s = .next t ∧
    t.getReg ra = imm ∧ t.pc = s.pc + 3#8 ∧ RegsSameBut [ra] s t ∧ MemSame s t ∧ StatusSame s t ∧ t.out = s.out) ∧
  (∀ (s : State) (a imm : Byte), 8 ≤ a.toNat → exec (.ldi a imm) s = .next (invalidRegisterState s a)) ∧
  (∀ a imm : Byte, encode defaultOpcodeMap (.ldi a imm) = [0b10000010#8, a, imm])

/-- R111: PRN, in every form: the register's byte is appended to `out` and pulsed on the output port, and nothing else but
`pc` changes; the InvalidRegister halt emits nothing; the encoding. -/
def Obligations.PrnEmitsTheRegister : Prop :=
  (∀ (s : State) (ra : RegIdx), ∃ t, exec (.prn (regByte ra)) s = .next t ∧
    t.out = s.out ++ [s.getReg ra] ∧ outPort s t = some (s.getReg ra) ∧ t.pc = s.pc + 2#8 ∧
    RegsSameBut [] s t ∧ MemSame s t ∧ StatusSame s t) ∧
  (∀ (s : State) (a : Byte), 8 ≤ a.toNat → exec (.prn a) s = .next (invalidRegisterState s a)) ∧
  (∀ a : Byte, encode defaultOpcodeMap (.prn a) = [0b01000111#8, a])

/-- R112: HLT halts with code 1, advances `pc` by 1 and changes nothing else; no step follows; the encoding. -/
def Obligations.HltHaltsAndAdvances : Prop :=
  (∀ (s : State), ∃ t, exec .hlt s = .next t ∧
    t.run = .halted ∧ t.haltReason = .hlt ∧ t.haltReason.code = 1#2 ∧ t.pc = s.pc + 1#8 ∧
    RegsSameBut [] s t ∧ MemSame s t ∧ DiagSame s t ∧ t.out = s.out ∧ ∀ u, step t ≠ .next u) ∧
  encode defaultOpcodeMap .hlt = [0b00000001#8]

/-- R121: PUSH, in every form: SP is decremented, then the register is stored at the new SP (the new SP itself for
`PUSH R7`), wrapping at 0; nothing else but `pc` changes; the InvalidRegister halt; the encoding, its byte the spec's
default from general knowledge (log 3). -/
def Obligations.PushStoresBelowTheStackPointer : Prop :=
  (∀ (s : State) (ra : RegIdx), ∃ t, exec (.push (regByte ra)) s = .next t ∧
    t.sp = s.sp - 1#8 ∧
    (s.mem.wf → t.memRead (s.sp - 1#8) = if ra = Config.spIndex then s.sp - 1#8 else s.getReg ra) ∧
    t.pc = s.pc + 2#8 ∧ RegsSameBut [Config.spIndex] s t ∧ MemSameBut (s.sp - 1#8) s t ∧ StatusSame s t ∧ t.out = s.out) ∧
  (∀ (s : State) (a : Byte), 8 ≤ a.toNat → exec (.push a) s = .next (invalidRegisterState s a)) ∧
  (∀ a : Byte, encode defaultOpcodeMap (.push a) = [0b01000101#8, a])

/-- R122: POP, in every form: the byte at SP goes into the register, then SP is incremented (`POP R7` leaves the popped
byte plus 1); memory is only read; the InvalidRegister halt; the encoding, its byte the spec's default from general
knowledge (log 3). -/
def Obligations.PopLoadsFromTheStackPointer : Prop :=
  (∀ (s : State) (ra : RegIdx), ∃ t, exec (.pop (regByte ra)) s = .next t ∧
    (ra ≠ Config.spIndex → t.getReg ra = s.memRead s.sp ∧ t.sp = s.sp + 1#8) ∧
    (ra = Config.spIndex → t.sp = s.memRead s.sp + 1#8) ∧
    t.pc = s.pc + 2#8 ∧ RegsSameBut [ra, Config.spIndex] s t ∧ MemSame s t ∧ StatusSame s t ∧ t.out = s.out) ∧
  (∀ (s : State) (a : Byte), 8 ≤ a.toNat → exec (.pop a) s = .next (invalidRegisterState s a)) ∧
  (∀ a : Byte, encode defaultOpcodeMap (.pop a) = [0b01000110#8, a])

/-- R130: CALL, in every form: the address two bytes on is pushed, then `pc` is the register as it is after the push (the
decremented SP for `CALL R7`), with no advance; nothing else changes; the InvalidRegister halt; the encoding, its byte
the spec's default from general knowledge (log 3). -/
def Obligations.CallPushesTheReturnAddressAndJumps : Prop :=
  (∀ (s : State) (ra : RegIdx), ∃ t, exec (.call (regByte ra)) s = .next t ∧
    t.sp = s.sp - 1#8 ∧ (s.mem.wf → t.memRead (s.sp - 1#8) = s.pc + 2#8) ∧
    (t.pc = if ra = Config.spIndex then s.sp - 1#8 else s.getReg ra) ∧
    RegsSameBut [Config.spIndex] s t ∧ MemSameBut (s.sp - 1#8) s t ∧ StatusSame s t ∧ t.out = s.out) ∧
  (∀ (s : State) (a : Byte), 8 ≤ a.toNat → exec (.call a) s = .next (invalidRegisterState s a)) ∧
  (∀ a : Byte, encode defaultOpcodeMap (.call a) = [0b01010000#8, a])

/-- R131: RET: `pc` is the byte at SP, then SP is incremented, with no advance; memory is only read; the encoding, its byte
the spec's default from general knowledge (log 3). -/
def Obligations.RetPopsThePc : Prop :=
  (∀ (s : State), ∃ t, exec .ret s = .next t ∧
    t.pc = s.memRead s.sp ∧ t.sp = s.sp + 1#8 ∧
    RegsSameBut [Config.spIndex] s t ∧ MemSame s t ∧ StatusSame s t ∧ t.out = s.out) ∧
  encode defaultOpcodeMap .ret = [0b00010001#8]

/-! ### Stack and control laws -/

/-- SP moves only by PUSH, POP, CALL and RET, each by one, and by an instruction whose operand names R7 as its destination
(R120). -/
def Obligations.StackPointerMovesByOne : Prop :=
  ∀ (m : OpcodeMap) (s t : State) (i : Instr), s.run = .running → fetchDecode m s = .instr i → engineStep m s = .next t →
    (i.opcode ∈ [Opcode.push, .call] → i.wellFormed = true → t.sp = s.sp - 1#8) ∧
    (i.opcode = .ret → t.sp = s.sp + 1#8) ∧
    (∀ r, i = .pop (regByte r) → r ≠ Config.spIndex → t.sp = s.sp + 1#8) ∧
    (i.opcode ∈ [Opcode.hlt, .prn] → t.sp = s.sp) ∧
    (i.opcode ∈ [Opcode.ldi, .add, .mul] → Config.spIndex ∉ Instr.regWrites i → t.sp = s.sp) ∧
    (i.wellFormed = false → t.sp = s.sp)

/-- The LIFO law (R123): balanced stack code that pushes at most 256 bytes beyond its start completes, leaves SP as it
found it and the cells from SP up untouched; and what a POP takes after balanced code between is what its PUSH put. -/
def Obligations.StackIsLastInFirstOut : Prop :=
  (∀ (k : Nat) (l : List Instr) (s : State), Balanced k l → k ≤ 256 → s.mem.wf →
    ∃ t, execAll l s = .next t ∧ t.sp = s.sp ∧
      ∀ d : Nat, d < 256 - k → t.memRead (s.sp + BitVec.ofNat 8 d) = s.memRead (s.sp + BitVec.ofNat 8 d)) ∧
  (∀ (k : Nat) (body : List Instr) (a b : RegIdx) (s : State), Balanced k body → k < 256 → s.mem.wf →
    a ≠ Config.spIndex → b ≠ Config.spIndex →
    ∃ t, execAll (.push (regByte a) :: (body ++ [.pop (regByte b)])) s = .next t ∧
      t.getReg b = s.getReg a ∧ t.sp = s.sp)

/-- The CALL and RET round trip (R132): a RET in any later state whose SP is as CALL left it, with the pushed byte not
overwritten, resumes two bytes after the CALL with SP as it was before the CALL. -/
def Obligations.RetResumesAfterTheCall : Prop :=
  ∀ (s t u : State) (ra : RegIdx), s.mem.wf → exec (.call (regByte ra)) s = .next t →
    u.sp = t.sp → u.memRead u.sp = t.memRead t.sp →
    ∃ v, exec .ret u = .next v ∧ v.pc = BitVec.ofNat 8 ((s.pc.toNat + 2) % 256) ∧ v.sp = s.sp

/-- A byte PUSH or CALL writes is the byte a later fetch of its address sees, as instruction byte or as operand (R51,
R167). -/
def Obligations.FetchSeesStoredBytes : Prop :=
  ∀ (s t u : State) (r : RegIdx) (v : Byte), s.mem.wf →
    ((exec (.push (regByte r)) s = .next t ∧ v = s.decSp.getReg r) ∨
     (exec (.call (regByte r)) s = .next t ∧ v = s.pc + 2#8)) → u.mem = t.mem →
    (u.pc = s.sp - 1#8 → (fetch u).ir = v) ∧
    (u.pc + 1#8 = s.sp - 1#8 → 1 ≤ operandCount (fetch u).ir → (fetch u).a = v) ∧
    (u.pc + 2#8 = s.sp - 1#8 → operandCount (fetch u).ir = 2 → (fetch u).b = v)

/-! ### Memory -/

/-- R43, with R42: a write sets its cell and changes no other cell and no other state, and keeps the canonical form. -/
def Obligations.WriteSetsItsCellOnly : Prop :=
  ∀ (s : State) (a v : Byte), s.mem.wf →
    (s.memWrite a v).memRead a = v ∧ (∀ b, b ≠ a → (s.memWrite a v).memRead b = s.memRead b) ∧
    s.memWrite a v = { s with mem := (s.memWrite a v).mem } ∧ (s.memWrite a v).mem.wf

/-- Accesses are idempotent (R47): writing the same value again, or writing back what a cell holds, leaves the same
state. -/
def Obligations.MemoryAccessIsIdempotent : Prop :=
  ∀ (s : State) (a v : Byte), s.mem.wf →
    (s.memWrite a v).memWrite a v = s.memWrite a v ∧ s.memWrite a (s.memRead a) = s

/-- Two memories in the canonical form that read the same at every one of the 256 addresses (R40) are equal data. -/
def Obligations.EqualReadsAreEqualMemories : Prop :=
  ∀ m n : Memory, m.wf → n.wf → (∀ a : Byte, m.read a = n.read a) → m = n

/-! ### Reset, load, start and ports -/

/-- R160: reset from Running or Halted gives every piece of state its value of R34's table, keeping nothing, and no step
exists. -/
def Obligations.ResetGivesTheResetValues : Prop :=
  ∀ (p : InputPorts) (s t : State), p.rst = true → s.run ≠ .heldInReset → t = sampleInputs p s →
    (∀ r : RegIdx, r ≠ 7 → t.getReg r = 0x00#8) ∧ t.getReg 7 = 0xF4#8 ∧ t.pc = 0x00#8 ∧
    (p.loadWe = false → ∀ a, t.memRead a = 0x00#8) ∧
    (p.loadWe = true → ∀ a, a ≠ p.loadAddr → t.memRead a = 0x00#8) ∧
    t.haltReason.code = 0#2 ∧ t.errPc = 0x00#8 ∧ t.errByte = 0x00#8 ∧ t.out = [] ∧
    ∀ u, step t ≠ .next u

/-- `State.reset` is the state in which Running begins with nothing loaded: every value of the last column of R34's
table. The load-count latch, which the table does not list, is the model's choice (log 4) and not stated. -/
def Obligations.ResetStateIsAsTabled : Prop :=
  (∀ r : RegIdx, r ≠ 7 → State.reset.getReg r = 0x00#8) ∧ State.reset.getReg 7 = 0xF4#8 ∧
  State.reset.pc = 0x00#8 ∧ (∀ a, State.reset.memRead a = 0x00#8) ∧ State.reset.run = .running ∧
  State.reset.haltReason.code = 0#2 ∧ State.reset.errPc = 0x00#8 ∧ State.reset.errByte = 0x00#8 ∧ State.reset.out = [] ∧
  Sys2Proof.core.reset = State.reset

/-- The load port (R161): while `rst = 1` a load write sets its cell and no other and the count is latched; with `rst = 0`
`load_we` is ignored. When the count is latched is the model's reading (log 6). -/
def Obligations.LoadPortWritesOnlyDuringReset : Prop :=
  (∀ (p : InputPorts) (s : State), s.run = .heldInReset → s.mem.wf → p.rst = true → p.loadWe = true →
    (sampleInputs p s).memRead p.loadAddr = p.loadData ∧ MemSameBut p.loadAddr s (sampleInputs p s) ∧
    (sampleInputs p s).loadCount = p.loadCount ∧ (sampleInputs p s).run = .heldInReset) ∧
  (∀ (p : InputPorts) (s : State), s.run = .heldInReset → p.rst = true → p.loadWe = false →
    sampleInputs p s = { s with loadCount := p.loadCount }) ∧
  (∀ (p : InputPorts) (s : State), p.rst = false → MemSame s (sampleInputs p s) ∧ (sampleInputs p s).loadCount = s.loadCount)

/-- R162: when `rst` falls the block is Running at `pc = 0`, everything else as it was, and the first step fetches
`mem[0]`. -/
def Obligations.StartRunsFromAddressZero : Prop :=
  ∀ (p : InputPorts) (s : State), s.run = .heldInReset → p.rst = false →
    sampleInputs p s = { s with run := .running, pc := 0x00#8 } ∧
    (fetch (sampleInputs p s)).ir = s.memRead 0x00#8 ∧ ∃ t, step (sampleInputs p s) = .next t

/-- The launch state (R163): reset, load cycles at ascending addresses and the release of reset lead from any state that is
not in reset to `launch program`, whose memory is the program from address 0 and 0x00 above it. -/
def Obligations.HostLoadReachesTheLaunchState : Prop :=
  ∀ (program : List Byte) (s : State), program.length ≤ 256 → s.run ≠ .heldInReset →
    sampleAll (hostLoad program) s = launch program ∧
    (∀ a : Byte, (launch program).memRead a = program.getD a.toNat 0x00#8) ∧
    launch program = { State.reset with mem := (launch program).mem, loadCount := (launch program).loadCount }

/-- The status ports show the engine status (R33), with the codes of R27. -/
def Obligations.StatusPortsShowTheStatus : Prop :=
  ∀ s : State,
    ((statusPorts s).running = true ↔ s.run = .running) ∧ ((statusPorts s).halted = true ↔ s.run = .halted) ∧
    (statusPorts s).errPc = s.errPc ∧ (statusPorts s).errByte = s.errByte ∧
    ((statusPorts s).haltReason = 0#2 ↔ s.haltReason = .none) ∧ ((statusPorts s).haltReason = 1#2 ↔ s.haltReason = .hlt) ∧
    ((statusPorts s).haltReason = 2#2 ↔ s.haltReason = .invalidOpcode) ∧
    ((statusPorts s).haltReason = 3#2 ↔ s.haltReason = .invalidRegister)

/-! ### The invariant -/

/-- The invariant holds at reset. -/
def Obligations.InvariantHoldsAtReset : Prop := Inv defaultOpcodeMap State.reset

/-- Every step keeps the invariant: memory stays canonical, Running has no halt reason, and a halt's record agrees with the
bytes at `pc` (R27, R28, R140 to R143). -/
def Obligations.EveryStepKeepsTheInvariant : Prop :=
  ∀ s t : State, Inv defaultOpcodeMap s → step s = .next t → Inv defaultOpcodeMap t

/-- Reset, load and start keep the invariant too, for every opcode map. -/
def Obligations.PortsKeepTheInvariant : Prop :=
  ∀ (m : OpcodeMap) (p : InputPorts) (s : State), Inv m s → Inv m (sampleInputs p s)
end

