-- ==== Sys2Proof/Laws/Decode.lean ====
section
/-! SUPPORT. The laws of the opcode map and the decoder's parts. -/
namespace Sys2Proof

/-- Every opcode is in the list of all. -/
theorem Opcode.mem_all (op : Opcode) : op ∈ Opcode.all := by
  cases op <;> decide

/-- What the map's comparison finds has the byte it was given (R62). -/
theorem OpcodeMap.byteOf_of_lookup {m : OpcodeMap} {ir : Byte} {op : Opcode} (h : m.lookup ir = some op) :
    m.byteOf op = ir := by
  have := List.find?_some h
  simpa using this

/-- A byte the comparison does not find is none of the nine (R67). -/
theorem OpcodeMap.lookup_eq_none {m : OpcodeMap} {ir : Byte} :
    m.lookup ir = none ↔ ∀ op, m.byteOf op ≠ ir := by
  simp only [OpcodeMap.lookup, List.find?_eq_none, decide_eq_true_eq]
  exact ⟨fun h op => h op (Opcode.mem_all op), fun h op _ => h op⟩

/-- A legal map gives different opcodes different bytes (R66). -/
theorem OpcodeMap.Legal.injective {m : OpcodeMap} (h : m.Legal) {o p : Opcode} (e : m.byteOf o = m.byteOf p) : o = p :=
  List.inj_on_of_nodup_map h.2.1 (Opcode.mem_all o) (Opcode.mem_all p) e

/-- A legal map finds each opcode by its byte. -/
theorem OpcodeMap.Legal.lookup_byteOf {m : OpcodeMap} (h : m.Legal) (op : Opcode) : m.lookup (m.byteOf op) = some op := by
  cases hl : m.lookup (m.byteOf op) with
  | none => exact absurd rfl (OpcodeMap.lookup_eq_none.mp hl op)
  | some o => exact congrArg some (h.injective (OpcodeMap.byteOf_of_lookup hl))

/-- In a legal map the count read from the byte is the opcode's (R61, R66). -/
theorem OpcodeMap.Legal.operandCount_byteOf {m : OpcodeMap} (h : m.Legal) (op : Opcode) :
    operandCount (m.byteOf op) = op.count := h.1 op (Opcode.mem_all op)

/-- Taking an instruction apart and assembling it again gives it back. -/
theorem Instr.assemble_operands (i : Instr) :
    i.opcode.assemble (i.operands.getD 0 0#8) (i.operands.getD 1 0#8) = i := by
  cases i <;> rfl

@[simp] theorem Opcode.assemble_opcode (op : Opcode) (a b : Byte) : (op.assemble a b).opcode = op := by
  cases op <;> rfl

/-- The register operands of an assembled instruction are those R88 lists. -/
@[simp] theorem Opcode.assemble_regOperands (op : Opcode) (a b : Byte) :
    (op.assemble a b).regOperands = op.regOperands a b := by
  cases op <;> rfl

/-- The operand bytes an instruction has are as many as its opcode's count (R63). -/
theorem Instr.operands_length (i : Instr) : i.operands.length = i.opcode.count := by
  cases i <;> rfl

/-- All `decodeParts` can answer. -/
theorem decodeParts_cases (m : OpcodeMap) (ir a b : Byte) :
    (m.lookup ir = none ∧ decodeParts m ir a b = .reject (.invalidOpcode ir)) ∨
    ∃ op, m.lookup ir = some op ∧ decodeParts m ir a b = .instr (op.assemble a b) := by
  unfold decodeParts
  cases h : m.lookup ir with
  | none => exact .inl ⟨rfl, rfl⟩
  | some op => exact .inr ⟨op, rfl, rfl⟩

/-- Decoding the byte of an opcode under a legal map, when the bytes hold the operands of its count: they are taken and the
instruction is assembled. -/
theorem decode_byteOf {m : OpcodeMap} (h : m.Legal) {op : Opcode} {bs rest : List Byte} {a b : Byte}
    (ht : takeOperands op.count bs = some (a, b, rest)) :
    decode m (m.byteOf op :: bs) = (.instr (op.assemble a b), rest) := by
  simp [decode, h.lookup_byteOf, h.operandCount_byteOf, ht]

/-- Decoding the byte of an opcode under a legal map, when the bytes end before its operands do. -/
theorem decode_byteOf_missing {m : OpcodeMap} (h : m.Legal) {op : Opcode} {bs : List Byte}
    (ht : takeOperands op.count bs = none) :
    decode m (m.byteOf op :: bs) = (.reject .missingByte, bs) := by
  simp [decode, h.lookup_byteOf, h.operandCount_byteOf, ht]

end Sys2Proof
end

