-- ==== Sys2Proof/Laws/Memory.lean ====
section
/-! SUPPORT. The laws of the memory: reads after writes, the canonical form, and that equal memories are equal data. -/
namespace Sys2Proof.Machine

/-- Reading past an entry that is, or is not, put at the head. -/
theorem Memory.readAt_consCell_ne (m : Memory) (a b : Nat) (v : Byte) (h : a ≠ b) :
    (Memory.consCell a v m).readAt b = m.readAt b := by
  unfold Memory.consCell
  split
  · rfl
  · simp [Memory.readAt, h]

/-- A write leaves every other cell alone, whatever form the list has. -/
theorem Memory.readAt_writeAt_ne (m : Memory) (a b : Nat) (v : Byte) (h : a ≠ b) :
    (m.writeAt a v).readAt b = m.readAt b := by
  induction m with
  | nil => exact Memory.readAt_consCell_ne [] a b v h
  | cons c rest ih =>
    obtain ⟨k, w⟩ := c
    simp only [Memory.writeAt]
    split
    · exact Memory.readAt_consCell_ne _ a b v h
    · split
      · next h2 => subst h2; rw [Memory.readAt_consCell_ne rest a b v h]; simp [Memory.readAt, h]
      · simp only [Memory.readAt, ih]

/-- An address below every listed one reads as an unlisted address. -/
theorem Memory.readAt_of_lt (m : Memory) (a : Nat) (h : ∀ c ∈ m, a < c.1) : m.readAt a = Memory.unlisted := by
  induction m with
  | nil => rfl
  | cons c rest ih =>
    obtain ⟨k, w⟩ := c
    have hk : a < k := h (k, w) (by simp)
    have hne : k ≠ a := by omega
    simp only [Memory.readAt, hne, if_false]
    exact ih fun c hc => h c (List.mem_cons_of_mem _ hc)

/-- The tail of a canonical memory is canonical. -/
theorem Memory.wf_tail {c : Host.Cell} {m : Memory} (h : Memory.wf (c :: m)) : Memory.wf m :=
  ⟨(List.pairwise_cons.mp h.1).2, fun d hd => h.2 d (List.mem_cons_of_mem _ hd)⟩

/-- Every later entry of a canonical memory has a higher address. -/
theorem Memory.wf_head_lt {k : Nat} {w : Byte} {m : Memory} (h : Memory.wf ((k, w) :: m)) : ∀ c ∈ m, k < c.1 :=
  fun c hc => (List.pairwise_cons.mp h.1).1 c hc

theorem Memory.readAt_consCell_self (m : Memory) (a : Nat) (v : Byte) (h : ∀ c ∈ m, a < c.1) :
    (Memory.consCell a v m).readAt a = v := by
  unfold Memory.consCell
  split
  · next hv => rw [hv]; exact Memory.readAt_of_lt m a h
  · simp [Memory.readAt]

/-- A read of the cell a write wrote gives the value written. -/
theorem Memory.readAt_writeAt_self (m : Memory) (a : Nat) (v : Byte) (h : m.wf) : (m.writeAt a v).readAt a = v := by
  induction m with
  | nil => exact Memory.readAt_consCell_self [] a v (by simp)
  | cons c rest ih =>
    obtain ⟨k, w⟩ := c
    simp only [Memory.writeAt]
    split
    · next h1 =>
      refine Memory.readAt_consCell_self _ a v fun c hc => ?_
      rcases List.mem_cons.mp hc with rfl | hc
      · exact h1
      · exact lt_trans h1 (Memory.wf_head_lt h c hc)
    · split
      · next h2 => subst h2; exact Memory.readAt_consCell_self _ a v (Memory.wf_head_lt h)
      · next h2 =>
        have hne : k ≠ a := fun e => h2 e.symm
        simp only [Memory.readAt, hne, if_false]
        exact ih (Memory.wf_tail h)

theorem Memory.mem_consCell {a : Nat} {v : Byte} {m : Memory} {c : Host.Cell} (h : c ∈ Memory.consCell a v m) :
    c = (a, v) ∨ c ∈ m := by
  unfold Memory.consCell at h
  split at h
  · exact .inr h
  · simpa using h

theorem Memory.mem_writeAt {a : Nat} {v : Byte} {m : Memory} {c : Host.Cell} (h : c ∈ m.writeAt a v) :
    c = (a, v) ∨ c ∈ m := by
  induction m with
  | nil => exact Memory.mem_consCell h
  | cons d rest ih =>
    obtain ⟨k, w⟩ := d
    simp only [Memory.writeAt] at h
    split at h
    · exact Memory.mem_consCell h
    · split at h
      · exact (Memory.mem_consCell h).imp id (List.mem_cons_of_mem _)
      · rcases List.mem_cons.mp h with rfl | h
        · exact .inr (by simp)
        · exact (ih h).imp id (List.mem_cons_of_mem _)

theorem Memory.consCell_wf {a : Nat} {v : Byte} {m : Memory} (ha : a < Config.memSize) (h : m.wf)
    (hlt : ∀ c ∈ m, a < c.1) : (Memory.consCell a v m).wf := by
  unfold Memory.consCell
  split
  · exact h
  · next hv =>
    refine ⟨List.pairwise_cons.mpr ⟨hlt, h.1⟩, fun c hc => ?_⟩
    rcases List.mem_cons.mp hc with rfl | hc
    · exact ⟨ha, hv⟩
    · exact h.2 c hc

/-- A write keeps the canonical form. -/
theorem Memory.writeAt_wf (m : Memory) (a : Nat) (v : Byte) (ha : a < Config.memSize) (h : m.wf) :
    (m.writeAt a v).wf := by
  induction m with
  | nil => exact Memory.consCell_wf ha h (by simp)
  | cons c rest ih =>
    obtain ⟨k, w⟩ := c
    simp only [Memory.writeAt]
    split
    · next h1 =>
      refine Memory.consCell_wf ha h fun c hc => ?_
      rcases List.mem_cons.mp hc with rfl | hc
      · exact h1
      · exact lt_trans h1 (Memory.wf_head_lt h c hc)
    · split
      · next h2 => subst h2; exact Memory.consCell_wf ha (Memory.wf_tail h) (Memory.wf_head_lt h)
      · next h1 h2 =>
        have ih := ih (Memory.wf_tail h)
        refine ⟨List.pairwise_cons.mpr ⟨fun c hc => ?_, ih.1⟩, fun c hc => ?_⟩
        · rcases Memory.mem_writeAt hc with rfl | hc
          · show k < a
            omega
          · exact Memory.wf_head_lt h c hc
        · rcases List.mem_cons.mp hc with rfl | hc
          · exact h.2 _ (by simp)
          · exact ih.2 c hc

/-- Every address a byte names is one of the 256 (R40). -/
theorem toNat_lt_memSize (a : Byte) : a.toNat < Config.memSize := a.isLt

theorem Memory.write_wf (m : Memory) (a v : Byte) (h : m.wf) : (m.write a v).wf :=
  Memory.writeAt_wf m a.toNat v (toNat_lt_memSize a) h

@[simp] theorem Memory.read_nil (a : Byte) : Memory.read [] a = Memory.unlisted := rfl

/-- The one lemma about a read after a write (R42, R43). -/
theorem Memory.read_write (m : Memory) (a b v : Byte) (h : m.wf) :
    (m.write a v).read b = if b = a then v else m.read b := by
  unfold Memory.read Memory.write
  split
  · next e => subst e; exact Memory.readAt_writeAt_self m b.toNat v h
  · next e => exact Memory.readAt_writeAt_ne m a.toNat b.toNat v fun e' => e (BitVec.eq_of_toNat_eq e'.symm)

/-- A write leaves every other cell alone (R43). -/
theorem Memory.read_write_ne (m : Memory) (a b v : Byte) (h : b ≠ a) : (m.write a v).read b = m.read b :=
  Memory.readAt_writeAt_ne m a.toNat b.toNat v fun e => h (BitVec.eq_of_toNat_eq e.symm)

/-- What a canonical memory reads as at its first listed address. -/
theorem Memory.readAt_head (k : Nat) (w : Byte) (m : Memory) : Memory.readAt ((k, w) :: m) k = w := by
  simp [Memory.readAt]

theorem Memory.readAt_cons_ne (k : Nat) (w : Byte) (m : Memory) (a : Nat) (h : k ≠ a) :
    Memory.readAt ((k, w) :: m) a = Memory.readAt m a := by
  simp [Memory.readAt, h]

end Sys2Proof.Machine
end

