-- ==== Sys2Proof/Laws/State.lean ====
section
/-! SUPPORT. One lemma per field per update of the state, so that no later proof unfolds a record update. -/
namespace Sys2Proof.Machine

/-! ### memWrite -/

@[simp] theorem State.memWrite_x (s : State) (a v : Byte) : (s.memWrite a v).x = s.x := rfl
@[simp] theorem State.memWrite_pc (s : State) (a v : Byte) : (s.memWrite a v).pc = s.pc := rfl
@[simp] theorem State.memWrite_mem (s : State) (a v : Byte) : (s.memWrite a v).mem = s.mem.write a v := rfl
@[simp] theorem State.memWrite_run (s : State) (a v : Byte) : (s.memWrite a v).run = s.run := rfl
@[simp] theorem State.memWrite_haltReason (s : State) (a v : Byte) : (s.memWrite a v).haltReason = s.haltReason := rfl
@[simp] theorem State.memWrite_errPc (s : State) (a v : Byte) : (s.memWrite a v).errPc = s.errPc := rfl
@[simp] theorem State.memWrite_errByte (s : State) (a v : Byte) : (s.memWrite a v).errByte = s.errByte := rfl
@[simp] theorem State.memWrite_out (s : State) (a v : Byte) : (s.memWrite a v).out = s.out := rfl
@[simp] theorem State.memWrite_loadCount (s : State) (a v : Byte) : (s.memWrite a v).loadCount = s.loadCount := rfl

/-! ### setReg -/

@[simp] theorem State.setReg_x (s : State) (i : RegIdx) (v : Byte) : (s.setReg i v).x = s.x.set i v := rfl
@[simp] theorem State.setReg_pc (s : State) (i : RegIdx) (v : Byte) : (s.setReg i v).pc = s.pc := rfl
@[simp] theorem State.setReg_mem (s : State) (i : RegIdx) (v : Byte) : (s.setReg i v).mem = s.mem := rfl
@[simp] theorem State.setReg_run (s : State) (i : RegIdx) (v : Byte) : (s.setReg i v).run = s.run := rfl
@[simp] theorem State.setReg_haltReason (s : State) (i : RegIdx) (v : Byte) : (s.setReg i v).haltReason = s.haltReason := rfl
@[simp] theorem State.setReg_errPc (s : State) (i : RegIdx) (v : Byte) : (s.setReg i v).errPc = s.errPc := rfl
@[simp] theorem State.setReg_errByte (s : State) (i : RegIdx) (v : Byte) : (s.setReg i v).errByte = s.errByte := rfl
@[simp] theorem State.setReg_out (s : State) (i : RegIdx) (v : Byte) : (s.setReg i v).out = s.out := rfl
@[simp] theorem State.setReg_loadCount (s : State) (i : RegIdx) (v : Byte) : (s.setReg i v).loadCount = s.loadCount := rfl

/-! ### setPc -/

@[simp] theorem State.setPc_x (s : State) (v : Byte) : (s.setPc v).x = s.x := rfl
@[simp] theorem State.setPc_pc (s : State) (v : Byte) : (s.setPc v).pc = v := rfl
@[simp] theorem State.setPc_mem (s : State) (v : Byte) : (s.setPc v).mem = s.mem := rfl
@[simp] theorem State.setPc_run (s : State) (v : Byte) : (s.setPc v).run = s.run := rfl
@[simp] theorem State.setPc_haltReason (s : State) (v : Byte) : (s.setPc v).haltReason = s.haltReason := rfl
@[simp] theorem State.setPc_errPc (s : State) (v : Byte) : (s.setPc v).errPc = s.errPc := rfl
@[simp] theorem State.setPc_errByte (s : State) (v : Byte) : (s.setPc v).errByte = s.errByte := rfl
@[simp] theorem State.setPc_out (s : State) (v : Byte) : (s.setPc v).out = s.out := rfl
@[simp] theorem State.setPc_loadCount (s : State) (v : Byte) : (s.setPc v).loadCount = s.loadCount := rfl

/-! ### emit -/

@[simp] theorem State.emit_x (s : State) (v : Byte) : (s.emit v).x = s.x := rfl
@[simp] theorem State.emit_pc (s : State) (v : Byte) : (s.emit v).pc = s.pc := rfl
@[simp] theorem State.emit_mem (s : State) (v : Byte) : (s.emit v).mem = s.mem := rfl
@[simp] theorem State.emit_run (s : State) (v : Byte) : (s.emit v).run = s.run := rfl
@[simp] theorem State.emit_haltReason (s : State) (v : Byte) : (s.emit v).haltReason = s.haltReason := rfl
@[simp] theorem State.emit_errPc (s : State) (v : Byte) : (s.emit v).errPc = s.errPc := rfl
@[simp] theorem State.emit_errByte (s : State) (v : Byte) : (s.emit v).errByte = s.errByte := rfl
@[simp] theorem State.emit_out (s : State) (v : Byte) : (s.emit v).out = s.out ++ [v] := rfl
@[simp] theorem State.emit_loadCount (s : State) (v : Byte) : (s.emit v).loadCount = s.loadCount := rfl

/-! ### halt -/

@[simp] theorem State.halt_x (s : State) (r : HaltReason) : (s.halt r).x = s.x := rfl
@[simp] theorem State.halt_pc (s : State) (r : HaltReason) : (s.halt r).pc = s.pc := rfl
@[simp] theorem State.halt_mem (s : State) (r : HaltReason) : (s.halt r).mem = s.mem := rfl
@[simp] theorem State.halt_run (s : State) (r : HaltReason) : (s.halt r).run = .halted := rfl
@[simp] theorem State.halt_haltReason (s : State) (r : HaltReason) : (s.halt r).haltReason = r := rfl
@[simp] theorem State.halt_errPc (s : State) (r : HaltReason) : (s.halt r).errPc = s.errPc := rfl
@[simp] theorem State.halt_errByte (s : State) (r : HaltReason) : (s.halt r).errByte = s.errByte := rfl
@[simp] theorem State.halt_out (s : State) (r : HaltReason) : (s.halt r).out = s.out := rfl
@[simp] theorem State.halt_loadCount (s : State) (r : HaltReason) : (s.halt r).loadCount = s.loadCount := rfl

/-! ### raiseHalt -/

@[simp] theorem State.raiseHalt_x (s : State) (r : HaltReason) (b : Byte) : (s.raiseHalt r b).x = s.x := rfl
@[simp] theorem State.raiseHalt_pc (s : State) (r : HaltReason) (b : Byte) : (s.raiseHalt r b).pc = s.pc := rfl
@[simp] theorem State.raiseHalt_mem (s : State) (r : HaltReason) (b : Byte) : (s.raiseHalt r b).mem = s.mem := rfl
@[simp] theorem State.raiseHalt_run (s : State) (r : HaltReason) (b : Byte) : (s.raiseHalt r b).run = .halted := rfl
@[simp] theorem State.raiseHalt_haltReason (s : State) (r : HaltReason) (b : Byte) : (s.raiseHalt r b).haltReason = r := rfl
@[simp] theorem State.raiseHalt_errPc (s : State) (r : HaltReason) (b : Byte) : (s.raiseHalt r b).errPc = s.pc := rfl
@[simp] theorem State.raiseHalt_errByte (s : State) (r : HaltReason) (b : Byte) : (s.raiseHalt r b).errByte = b := rfl
@[simp] theorem State.raiseHalt_out (s : State) (r : HaltReason) (b : Byte) : (s.raiseHalt r b).out = s.out := rfl
@[simp] theorem State.raiseHalt_loadCount (s : State) (r : HaltReason) (b : Byte) : (s.raiseHalt r b).loadCount = s.loadCount := rfl

/-! ### setSp -/

@[simp] theorem State.setSp_x (s : State) (v : Byte) : (s.setSp v).x = s.x.set Config.spIndex v := rfl
@[simp] theorem State.setSp_pc (s : State) (v : Byte) : (s.setSp v).pc = s.pc := rfl
@[simp] theorem State.setSp_mem (s : State) (v : Byte) : (s.setSp v).mem = s.mem := rfl
@[simp] theorem State.setSp_run (s : State) (v : Byte) : (s.setSp v).run = s.run := rfl
@[simp] theorem State.setSp_haltReason (s : State) (v : Byte) : (s.setSp v).haltReason = s.haltReason := rfl
@[simp] theorem State.setSp_errPc (s : State) (v : Byte) : (s.setSp v).errPc = s.errPc := rfl
@[simp] theorem State.setSp_errByte (s : State) (v : Byte) : (s.setSp v).errByte = s.errByte := rfl
@[simp] theorem State.setSp_out (s : State) (v : Byte) : (s.setSp v).out = s.out := rfl
@[simp] theorem State.setSp_loadCount (s : State) (v : Byte) : (s.setSp v).loadCount = s.loadCount := rfl

/-! ### decSp -/

@[simp] theorem State.decSp_x (s : State) : (s.decSp).x = s.x.set Config.spIndex (s.sp - 1#8) := rfl
@[simp] theorem State.decSp_pc (s : State) : (s.decSp).pc = s.pc := rfl
@[simp] theorem State.decSp_mem (s : State) : (s.decSp).mem = s.mem := rfl
@[simp] theorem State.decSp_run (s : State) : (s.decSp).run = s.run := rfl
@[simp] theorem State.decSp_haltReason (s : State) : (s.decSp).haltReason = s.haltReason := rfl
@[simp] theorem State.decSp_errPc (s : State) : (s.decSp).errPc = s.errPc := rfl
@[simp] theorem State.decSp_errByte (s : State) : (s.decSp).errByte = s.errByte := rfl
@[simp] theorem State.decSp_out (s : State) : (s.decSp).out = s.out := rfl
@[simp] theorem State.decSp_loadCount (s : State) : (s.decSp).loadCount = s.loadCount := rfl

/-! ### incSp -/

@[simp] theorem State.incSp_x (s : State) : (s.incSp).x = s.x.set Config.spIndex (s.sp + 1#8) := rfl
@[simp] theorem State.incSp_pc (s : State) : (s.incSp).pc = s.pc := rfl
@[simp] theorem State.incSp_mem (s : State) : (s.incSp).mem = s.mem := rfl
@[simp] theorem State.incSp_run (s : State) : (s.incSp).run = s.run := rfl
@[simp] theorem State.incSp_haltReason (s : State) : (s.incSp).haltReason = s.haltReason := rfl
@[simp] theorem State.incSp_errPc (s : State) : (s.incSp).errPc = s.errPc := rfl
@[simp] theorem State.incSp_errByte (s : State) : (s.incSp).errByte = s.errByte := rfl
@[simp] theorem State.incSp_out (s : State) : (s.incSp).out = s.out := rfl
@[simp] theorem State.incSp_loadCount (s : State) : (s.incSp).loadCount = s.loadCount := rfl

/-! ### advance -/

@[simp] theorem State.advance_x (s : State) (op : Opcode) : (s.advance op).x = s.x := rfl
@[simp] theorem State.advance_pc (s : State) (op : Opcode) : (s.advance op).pc = s.pc + BitVec.ofNat 8 op.count + 1#8 := rfl
@[simp] theorem State.advance_mem (s : State) (op : Opcode) : (s.advance op).mem = s.mem := rfl
@[simp] theorem State.advance_run (s : State) (op : Opcode) : (s.advance op).run = s.run := rfl
@[simp] theorem State.advance_haltReason (s : State) (op : Opcode) : (s.advance op).haltReason = s.haltReason := rfl
@[simp] theorem State.advance_errPc (s : State) (op : Opcode) : (s.advance op).errPc = s.errPc := rfl
@[simp] theorem State.advance_errByte (s : State) (op : Opcode) : (s.advance op).errByte = s.errByte := rfl
@[simp] theorem State.advance_out (s : State) (op : Opcode) : (s.advance op).out = s.out := rfl
@[simp] theorem State.advance_loadCount (s : State) (op : Opcode) : (s.advance op).loadCount = s.loadCount := rfl

@[simp] theorem State.raiseInvalidOpcode_eq (s : State) (ir : Byte) :
    s.raiseInvalidOpcode ir = s.raiseHalt .invalidOpcode ir := rfl

@[simp] theorem State.raiseInvalidRegister_eq (s : State) (r : Byte) :
    s.raiseInvalidRegister r = s.raiseHalt .invalidRegister r := rfl

end Sys2Proof.Machine
end

