-- ==== Sys2Proof/Laws/Ops.lean ====
section
/-! SUPPORT. One lemma for each shared operation, saying all it can do: register and memory reads after each update, the
register-operand check, push, the ALU. -/
namespace Sys2Proof.Machine

/-! ### Register reads after an update -/

theorem State.getReg_setReg (s : State) (i j : RegIdx) (v : Byte) :
    (s.setReg i v).getReg j = if j = i then v else s.getReg j := by
  unfold State.getReg
  by_cases h : j = i
  · subst h; simp
  · have hne : i.val ≠ j.val := fun e => h (Fin.ext e.symm)
    simp [h, hne]

@[simp] theorem State.getReg_setReg_self (s : State) (i : RegIdx) (v : Byte) : (s.setReg i v).getReg i = v := by
  simp [State.getReg_setReg]

theorem State.getReg_setReg_ne (s : State) (i j : RegIdx) (v : Byte) (h : j ≠ i) :
    (s.setReg i v).getReg j = s.getReg j := by
  simp [State.getReg_setReg, h]

@[simp] theorem State.getReg_memWrite (s : State) (a v : Byte) (i : RegIdx) :
    (s.memWrite a v).getReg i = s.getReg i := rfl
@[simp] theorem State.getReg_setPc (s : State) (v : Byte) (i : RegIdx) : (s.setPc v).getReg i = s.getReg i := rfl
@[simp] theorem State.getReg_emit (s : State) (v : Byte) (i : RegIdx) : (s.emit v).getReg i = s.getReg i := rfl
@[simp] theorem State.getReg_halt (s : State) (r : HaltReason) (i : RegIdx) : (s.halt r).getReg i = s.getReg i := rfl
@[simp] theorem State.getReg_raiseHalt (s : State) (r : HaltReason) (b : Byte) (i : RegIdx) :
    (s.raiseHalt r b).getReg i = s.getReg i := rfl
@[simp] theorem State.getReg_advance (s : State) (op : Opcode) (i : RegIdx) :
    (s.advance op).getReg i = s.getReg i := rfl

theorem State.getReg_setSp (s : State) (v : Byte) (i : RegIdx) :
    (s.setSp v).getReg i = if i = Config.spIndex then v else s.getReg i :=
  State.getReg_setReg s Config.spIndex i v
theorem State.getReg_decSp (s : State) (i : RegIdx) :
    s.decSp.getReg i = if i = Config.spIndex then s.sp - 1#8 else s.getReg i := State.getReg_setSp s _ i
theorem State.getReg_incSp (s : State) (i : RegIdx) :
    s.incSp.getReg i = if i = Config.spIndex then s.sp + 1#8 else s.getReg i := State.getReg_setSp s _ i

@[simp] theorem State.sp_memWrite (s : State) (a v : Byte) : (s.memWrite a v).sp = s.sp := rfl
@[simp] theorem State.sp_setPc (s : State) (v : Byte) : (s.setPc v).sp = s.sp := rfl
@[simp] theorem State.sp_emit (s : State) (v : Byte) : (s.emit v).sp = s.sp := rfl
@[simp] theorem State.sp_halt (s : State) (r : HaltReason) : (s.halt r).sp = s.sp := rfl
@[simp] theorem State.sp_raiseHalt (s : State) (r : HaltReason) (b : Byte) : (s.raiseHalt r b).sp = s.sp := rfl
@[simp] theorem State.sp_advance (s : State) (op : Opcode) : (s.advance op).sp = s.sp := rfl
@[simp] theorem State.sp_setSp (s : State) (v : Byte) : (s.setSp v).sp = v := State.getReg_setReg_self s _ v
@[simp] theorem State.sp_decSp (s : State) : s.decSp.sp = s.sp - 1#8 := State.sp_setSp s _
@[simp] theorem State.sp_incSp (s : State) : s.incSp.sp = s.sp + 1#8 := State.sp_setSp s _
theorem State.sp_setReg (s : State) (i : RegIdx) (v : Byte) :
    (s.setReg i v).sp = if Config.spIndex = i then v else s.sp := State.getReg_setReg s i _ v

/-! ### Memory reads after an update -/

theorem State.memRead_eq (s : State) (a : Byte) : s.memRead a = s.mem.read a := rfl

theorem State.memRead_memWrite (s : State) (a b v : Byte) (h : s.mem.wf) :
    (s.memWrite a v).memRead b = if b = a then v else s.memRead b := Memory.read_write s.mem a b v h
theorem State.memRead_memWrite_ne (s : State) (a b v : Byte) (h : b ≠ a) :
    (s.memWrite a v).memRead b = s.memRead b := Memory.read_write_ne s.mem a b v h
@[simp] theorem State.memRead_setReg (s : State) (i : RegIdx) (v a : Byte) :
    (s.setReg i v).memRead a = s.memRead a := rfl
@[simp] theorem State.memRead_setPc (s : State) (v a : Byte) : (s.setPc v).memRead a = s.memRead a := rfl
@[simp] theorem State.memRead_emit (s : State) (v a : Byte) : (s.emit v).memRead a = s.memRead a := rfl
@[simp] theorem State.memRead_halt (s : State) (r : HaltReason) (a : Byte) : (s.halt r).memRead a = s.memRead a := rfl
@[simp] theorem State.memRead_raiseHalt (s : State) (r : HaltReason) (b a : Byte) :
    (s.raiseHalt r b).memRead a = s.memRead a := rfl
@[simp] theorem State.memRead_advance (s : State) (op : Opcode) (a : Byte) :
    (s.advance op).memRead a = s.memRead a := rfl
@[simp] theorem State.memRead_decSp (s : State) (a : Byte) : s.decSp.memRead a = s.memRead a := rfl
@[simp] theorem State.memRead_incSp (s : State) (a : Byte) : s.incSp.memRead a = s.memRead a := rfl

theorem State.memWrite_wf (s : State) (a v : Byte) (h : s.mem.wf) : (s.memWrite a v).mem.wf :=
  Memory.write_wf s.mem a v h

/-! ### storeBytes -/

@[simp] theorem State.storeBytes_nil (s : State) (a : Byte) : s.storeBytes a [] = s := rfl
@[simp] theorem State.storeBytes_cons (s : State) (a v : Byte) (rest : List Byte) :
    s.storeBytes a (v :: rest) = (s.memWrite a v).storeBytes (a + 1#8) rest := rfl

/-- Storing bytes changes memory alone, and keeps its canonical form. -/
theorem State.storeBytes_spec (bs : List Byte) (s : State) (a : Byte) :
    ∃ m, s.storeBytes a bs = { s with mem := m } ∧ (s.mem.wf → m.wf) := by
  induction bs generalizing s a with
  | nil => exact ⟨s.mem, rfl, id⟩
  | cons v rest ih =>
    obtain ⟨m, he, hw⟩ := ih (s.memWrite a v) (a + 1#8)
    exact ⟨m, he, fun h => hw (State.memWrite_wf s a v h)⟩

/-! ### The register-operand check -/

@[simp] theorem regByte_toNat (r : RegIdx) : (regByte r).toNat = r.val := by
  have h := r.isLt
  simp only [regByte, BitVec.toNat_ofNat]
  omega

/-- A valid register byte names its register (R64). -/
@[simp] theorem regOperand_regByte (r : RegIdx) : regOperand (regByte r) = some r := by
  simp [regOperand]

/-- All `regOperand` can answer: the register with the byte's number, or none exactly from 8 on (R64). -/
theorem regOperand_cases (b : Byte) :
    (8 ≤ b.toNat ∧ regOperand b = none) ∨ ∃ r : RegIdx, b = regByte r ∧ regOperand b = some r := by
  by_cases h : b.toNat < 8
  · refine .inr ⟨⟨b.toNat, h⟩, BitVec.eq_of_toNat_eq (by simp), by simp [regOperand, h]⟩
  · exact .inl ⟨by omega, by simp [regOperand, h]⟩

@[simp] theorem withReg_regByte (s : State) (r : RegIdx) (k : RegIdx → Host.Outcome State Fault Refusal) :
    withReg s (regByte r) k = k r := by
  simp [withReg]

/-- An operand byte of 8 or more takes the InvalidRegister halt (R85, R142). -/
theorem withReg_invalid (s : State) (b : Byte) (k : RegIdx → Host.Outcome State Fault Refusal) (h : 8 ≤ b.toNat) :
    withReg s b k = .next (s.raiseInvalidRegister b) := by
  have h' : ¬ b.toNat < 8 := by omega
  simp [withReg, regOperand, h']

/-- All `withReg` can do. -/
theorem withReg_cases (s : State) (b : Byte) (k : RegIdx → Host.Outcome State Fault Refusal) :
    (8 ≤ b.toNat ∧ withReg s b k = .next (s.raiseInvalidRegister b)) ∨
    ∃ r : RegIdx, b = regByte r ∧ withReg s b k = k r := by
  rcases regOperand_cases b with ⟨h, -⟩ | ⟨r, rfl, -⟩
  · exact .inl ⟨h, withReg_invalid s b k h⟩
  · exact .inr ⟨r, rfl, withReg_regByte s r k⟩

theorem validRegByte_regByte (r : RegIdx) : validRegByte (regByte r) = true := by
  have h := r.isLt
  simp [validRegByte]

/-- A valid operand byte is the byte of a register. -/
theorem validRegByte_iff (b : Byte) : validRegByte b = true ↔ ∃ r : RegIdx, b = regByte r := by
  constructor
  · intro h
    rcases regOperand_cases b with ⟨h8, -⟩ | ⟨r, rfl, -⟩
    · simp only [validRegByte, decide_eq_true_eq] at h
      omega
    · exact ⟨r, rfl⟩
  · rintro ⟨r, rfl⟩
    exact validRegByte_regByte r

theorem regByte_injective {a b : RegIdx} (h : regByte a = regByte b) : a = b := by
  have := congrArg BitVec.toNat h
  simpa [Fin.ext_iff] using this

/-! ### push and the ALU -/

/-- All a push does (R120): SP is decremented and the value is stored at the new SP. -/
theorem pushValue_eq (v : State → Byte) (s : State) :
    pushValue v s = s.decSp.memWrite (s.sp - 1#8) (v s.decSp) := by
  simp [pushValue]

/-- The byte stored by `PUSH Ra`: the register, or the new SP for R7 (R121). -/
theorem push_byte (s : State) (r : RegIdx) :
    s.decSp.getReg r = if r = Config.spIndex then s.sp - 1#8 else s.getReg r := State.getReg_decSp s r

@[simp] theorem aluAdd_toNat (u v : Byte) : (aluAdd u v).toNat = (u.toNat + v.toNat) % 256 := by
  simp [aluAdd]

@[simp] theorem aluMul_toNat (u v : Byte) : (aluMul u v).toNat = (u.toNat * v.toNat) % 256 := by
  simp [aluMul]

/-- The exact sum reduced mod 256 is the sum of bit vectors. -/
theorem aluAdd_eq (u v : Byte) : aluAdd u v = u + v := BitVec.eq_of_toNat_eq (by simp)

/-- The exact product reduced mod 256 is the product of bit vectors. -/
theorem aluMul_eq (u v : Byte) : aluMul u v = u * v := BitVec.eq_of_toNat_eq (by simp)

end Sys2Proof.Machine
end

