-- ==== Sys2Proof/Laws/Exec.lean ====
section
/-! SUPPORT. What executing an instruction can do, said once: provers cite `exec_cases` instead of unfolding the meanings. -/
namespace Sys2Proof.Machine

theorem validRegByte_of_ge {a : Byte} (h : 8 ≤ a.toNat) : validRegByte a = false := by
  simp only [validRegByte, decide_eq_false_iff_not]
  omega

/-- All an instruction can do: the InvalidRegister halt on the first of its register operands that is 8 or more, or the
effect of its handler on the registers its operands name. -/
theorem exec_cases (i : Instr) (s : State) :
    (∃ r ∈ i.regOperands, 8 ≤ r.toNat ∧ i.regOperands.find? (fun r => !validRegByte r) = some r ∧
      exec i s = .next (s.raiseHalt .invalidRegister r)) ∨
    (i = .hlt ∧ exec i s = .next ((s.halt .hlt).advance .hlt)) ∨
    (i = .ret ∧ exec i s = .next (s.setPc (s.memRead s.sp)).incSp) ∨
    (∃ r, i = .push (regByte r) ∧
      exec i s = .next ((s.decSp.memWrite (s.sp - 1#8) (s.decSp.getReg r)).advance .push)) ∨
    (∃ r, i = .pop (regByte r) ∧ exec i s = .next ((s.setReg r (s.memRead s.sp)).incSp.advance .pop)) ∨
    (∃ r, i = .prn (regByte r) ∧ exec i s = .next ((s.emit (s.getReg r)).advance .prn)) ∨
    (∃ r, i = .call (regByte r) ∧
      exec i s = .next ((s.decSp.memWrite (s.sp - 1#8) (s.pc + 2#8)).setPc (s.decSp.getReg r))) ∨
    (∃ r v, i = .ldi (regByte r) v ∧ exec i s = .next ((s.setReg r v).advance .ldi)) ∨
    (∃ r q, i = .add (regByte r) (regByte q) ∧
      exec i s = .next ((s.setReg r (s.getReg r + s.getReg q)).advance .add)) ∨
    (∃ r q, i = .mul (regByte r) (regByte q) ∧
      exec i s = .next ((s.setReg r (s.getReg r * s.getReg q)).advance .mul)) := by
  cases i with
  | hlt => exact .inr (.inl ⟨rfl, rfl⟩)
  | ret => exact .inr (.inr (.inl ⟨rfl, rfl⟩))
  | push a =>
    rcases regOperand_cases a with ⟨h, -⟩ | ⟨r, rfl, -⟩
    · exact .inl ⟨a, by simp [Instr.regOperands], h,
        by simp [Instr.regOperands, validRegByte_of_ge h],
        by simp [exec, execPush, withReg_invalid _ _ _ h]⟩
    · exact .inr (.inr (.inr (.inl ⟨r, rfl, by simp [exec, execPush, pushValue_eq]⟩)))
  | pop a =>
    rcases regOperand_cases a with ⟨h, -⟩ | ⟨r, rfl, -⟩
    · exact .inl ⟨a, by simp [Instr.regOperands], h,
        by simp [Instr.regOperands, validRegByte_of_ge h],
        by simp [exec, execPop, withReg_invalid _ _ _ h]⟩
    · exact .inr (.inr (.inr (.inr (.inl ⟨r, rfl, by simp [exec, execPop]⟩))))
  | prn a =>
    rcases regOperand_cases a with ⟨h, -⟩ | ⟨r, rfl, -⟩
    · exact .inl ⟨a, by simp [Instr.regOperands], h,
        by simp [Instr.regOperands, validRegByte_of_ge h],
        by simp [exec, execPrn, withReg_invalid _ _ _ h]⟩
    · exact .inr (.inr (.inr (.inr (.inr (.inl ⟨r, rfl, by simp [exec, execPrn]⟩)))))
  | call a =>
    rcases regOperand_cases a with ⟨h, -⟩ | ⟨r, rfl, -⟩
    · exact .inl ⟨a, by simp [Instr.regOperands], h,
        by simp [Instr.regOperands, validRegByte_of_ge h],
        by simp [exec, execCall, withReg_invalid _ _ _ h]⟩
    · exact .inr (.inr (.inr (.inr (.inr (.inr (.inl ⟨r, rfl,
        by simp [exec, execCall, pushValue_eq, returnAddress]⟩))))))
  | ldi a v =>
    rcases regOperand_cases a with ⟨h, -⟩ | ⟨r, rfl, -⟩
    · exact .inl ⟨a, by simp [Instr.regOperands], h,
        by simp [Instr.regOperands, validRegByte_of_ge h],
        by simp [exec, execLdi, withReg_invalid _ _ _ h]⟩
    · exact .inr (.inr (.inr (.inr (.inr (.inr (.inr (.inl ⟨r, v, rfl, by simp [exec, execLdi]⟩)))))))
  | add a b =>
    rcases regOperand_cases a with ⟨h, -⟩ | ⟨r, rfl, -⟩
    · exact .inl ⟨a, by simp [Instr.regOperands], h,
        by simp [Instr.regOperands, validRegByte_of_ge h],
        by simp [exec, execAdd, withReg_invalid _ _ _ h]⟩
    · rcases regOperand_cases b with ⟨h, -⟩ | ⟨q, rfl, -⟩
      · exact .inl ⟨b, by simp [Instr.regOperands], h,
          by simp [Instr.regOperands, validRegByte_of_ge h, validRegByte_regByte],
          by simp [exec, execAdd, withReg_invalid _ _ _ h]⟩
      · exact .inr (.inr (.inr (.inr (.inr (.inr (.inr (.inr (.inl ⟨r, q, rfl,
          by simp [exec, execAdd, aluApply, aluAdd_eq]⟩))))))))
  | mul a b =>
    rcases regOperand_cases a with ⟨h, -⟩ | ⟨r, rfl, -⟩
    · exact .inl ⟨a, by simp [Instr.regOperands], h,
        by simp [Instr.regOperands, validRegByte_of_ge h],
        by simp [exec, execMul, withReg_invalid _ _ _ h]⟩
    · rcases regOperand_cases b with ⟨h, -⟩ | ⟨q, rfl, -⟩
      · exact .inl ⟨b, by simp [Instr.regOperands], h,
          by simp [Instr.regOperands, validRegByte_of_ge h, validRegByte_regByte],
          by simp [exec, execMul, withReg_invalid _ _ _ h]⟩
      · exact .inr (.inr (.inr (.inr (.inr (.inr (.inr (.inr (.inr ⟨r, q, rfl,
          by simp [exec, execMul, aluApply, aluMul_eq]⟩))))))))

/-- The first register operand of 8 or more decides: the instruction is the InvalidRegister halt on it (R85, R142). -/
theorem exec_of_invalid (i : Instr) (s : State) {b : Byte}
    (h : i.regOperands.find? (fun r => !validRegByte r) = some b) :
    exec i s = .next (s.raiseHalt .invalidRegister b) := by
  rcases exec_cases i s with ⟨r, -, -, hr, he⟩ | ⟨rfl, -⟩ | ⟨rfl, -⟩ | ⟨r, rfl, -⟩ | ⟨r, rfl, -⟩ | ⟨r, rfl, -⟩ |
    ⟨r, rfl, -⟩ | ⟨r, v, rfl, -⟩ | ⟨r, q, rfl, -⟩ | ⟨r, q, rfl, -⟩
  · rw [he, Option.some.inj (hr.symm.trans h)]
  all_goals simp [Instr.regOperands, validRegByte_regByte] at h

end Sys2Proof.Machine
end

