-- ==== Sys2Proof/Laws/PerInstr.lean ====
section
/-! SUPPORT. Statements made of every instruction, one lemma per constructor. Family `EncodedLength`: an instruction is
encoded in one byte and its operands, so in 1, 2 or 3 bytes (30_encoding.md R60, R63). -/
namespace Sys2Proof.Laws.EncodedLength

/-- For every opcode map the encoding of the instruction has one byte more than its opcode's operand count. -/
def Statement (i : Instr) : Prop := ∀ m : OpcodeMap, (encode m i).length = i.opcode.count + 1

/-- The shape all the cases share. -/
theorem of_operands (i : Instr) : Statement i := fun m => by
  simp [encode, Instr.operands_length]

theorem hlt : Statement .hlt := of_operands _
theorem ret : Statement .ret := of_operands _
theorem push (a : Byte) : Statement (.push a) := of_operands _
theorem pop (a : Byte) : Statement (.pop a) := of_operands _
theorem prn (a : Byte) : Statement (.prn a) := of_operands _
theorem call (a : Byte) : Statement (.call a) := of_operands _
theorem ldi (a imm : Byte) : Statement (.ldi a imm) := of_operands _
theorem add (a b : Byte) : Statement (.add a b) := of_operands _
theorem mul (a b : Byte) : Statement (.mul a b) := of_operands _

end Sys2Proof.Laws.EncodedLength
end

