-- ==== Sys2Proof/Laws/Step.lean ====
section
/-! SUPPORT. What a step can do, said once: provers cite `engineStep_cases` instead of unfolding the step. -/
namespace Sys2Proof.Machine

theorem step_eq (s : State) : step s = engineStep defaultOpcodeMap s := rfl

theorem engineStep_running (m : OpcodeMap) (s : State) (h : s.run = .running) :
    engineStep m s = runDecoded s (fetchDecode m s) := by
  simp [engineStep, h]

/-- All a step can do: it is stuck outside Running; in Running it is the InvalidOpcode halt, or the decoded instruction. -/
theorem engineStep_cases (m : OpcodeMap) (s : State) :
    (s.run = .heldInReset ∧ engineStep m s = .fault .heldInReset) ∨
    (s.run = .halted ∧ engineStep m s = .fault .halted) ∨
    (s.run = .running ∧ m.lookup (fetch s).ir = none ∧
      fetchDecode m s = .reject (.invalidOpcode (fetch s).ir) ∧
      engineStep m s = .next (s.raiseInvalidOpcode (fetch s).ir)) ∨
    (∃ op, s.run = .running ∧ m.lookup (fetch s).ir = some op ∧
      fetchDecode m s = .instr (op.assemble (fetch s).a (fetch s).b) ∧
      engineStep m s = exec (op.assemble (fetch s).a (fetch s).b) s) := by
  cases hr : s.run with
  | heldInReset => exact .inl ⟨rfl, by simp [engineStep, hr]⟩
  | halted => exact .inr (.inl ⟨rfl, by simp [engineStep, hr]⟩)
  | running =>
    rcases decodeParts_cases m (fetch s).ir (fetch s).a (fetch s).b with ⟨hl, hd⟩ | ⟨op, hl, hd⟩
    · exact .inr (.inr (.inl ⟨rfl, hl, hd, by rw [engineStep_running m s hr, fetchDecode, hd, runDecoded]⟩))
    · exact .inr (.inr (.inr ⟨op, rfl, hl, hd, by rw [engineStep_running m s hr, fetchDecode, hd, runDecoded]⟩))

/-- Only a Running state has a next state (R80). -/
theorem running_of_engineStep_next {m : OpcodeMap} {s t : State} (h : engineStep m s = .next t) : s.run = .running := by
  rcases engineStep_cases m s with ⟨-, he⟩ | ⟨-, he⟩ | ⟨hr, -⟩ | ⟨-, hr, -⟩
  · rw [he] at h; cases h
  · rw [he] at h; cases h
  · exact hr
  · exact hr

theorem engineStep_of_instr {m : OpcodeMap} {s : State} {i : Instr} (h : s.run = .running)
    (hd : fetchDecode m s = .instr i) : engineStep m s = exec i s := by
  rw [engineStep_running m s h, hd, runDecoded]

theorem engineStep_of_reject {m : OpcodeMap} {s : State} {e : DecodeReject} (h : s.run = .running)
    (hd : fetchDecode m s = .reject e) : engineStep m s = .next (s.raiseHalt .invalidOpcode (fetch s).ir) := by
  rw [engineStep_running m s h, hd, runDecoded, State.raiseInvalidOpcode_eq]

/-- A fetched byte decodes to an instruction exactly as the map says (R66). -/
theorem lookup_of_fetchDecode_instr {m : OpcodeMap} {s : State} {i : Instr} (h : fetchDecode m s = .instr i) :
    m.lookup (fetch s).ir = some i.opcode ∧ i = i.opcode.assemble (fetch s).a (fetch s).b := by
  rcases decodeParts_cases m (fetch s).ir (fetch s).a (fetch s).b with ⟨-, hd⟩ | ⟨op, hl, hd⟩
  · rw [fetchDecode, hd] at h; cases h
  · rw [fetchDecode, hd] at h
    cases h
    simp [hl]

theorem lookup_of_fetchDecode_reject {m : OpcodeMap} {s : State} {e : DecodeReject} (h : fetchDecode m s = .reject e) :
    m.lookup (fetch s).ir = none := by
  rcases decodeParts_cases m (fetch s).ir (fetch s).a (fetch s).b with ⟨hl, -⟩ | ⟨op, -, hd⟩
  · exact hl
  · rw [fetchDecode, hd] at h; cases h

end Sys2Proof.Machine
end

