-- ==== Sys2Proof/Tests/Slice0.lean ====
section
/-! SUPPORT. The model's own tests. Expected results are the spec's: 95_test_vectors.md, the examples of the instruction
rules, and 30_encoding.md. The last part gives each statement with hypotheses a concrete state that meets them. -/
namespace Sys2Proof.Tests
open Sys2Proof.Machine

/-- A Running state with reset registers, the given `pc`, and bytes in memory. -/
def at' (pc : Byte) (cells : List (Byte × Byte)) : State :=
  cells.foldl (fun s c => s.memWrite c.1 c.2) { State.reset with pc := pc }

/-- Does the outcome answer a next state of which `p` holds? -/
def after (o : Host.Outcome State Fault Refusal) (p : State → Bool) : Bool :=
  match o with
  | .next t => p t
  | .fault _ | .refused _ => false

/-! ### WellFormed: an ill-formed term for each check -/

theorem test_wf_refuses_push_8 : (Instr.push 8#8).wellFormed = false := by decide
theorem test_wf_refuses_pop_255 : (Instr.pop 255#8).wellFormed = false := by decide
theorem test_wf_refuses_prn_9 : (Instr.prn 9#8).wellFormed = false := by decide
theorem test_wf_refuses_call_16 : (Instr.call 16#8).wellFormed = false := by decide
theorem test_wf_refuses_ldi_8 : (Instr.ldi 8#8 0#8).wellFormed = false := by decide
theorem test_wf_refuses_add_a : (Instr.add 8#8 0#8).wellFormed = false := by decide
theorem test_wf_refuses_add_b : (Instr.add 0#8 8#8).wellFormed = false := by decide
theorem test_wf_refuses_mul_a : (Instr.mul 128#8 0#8).wellFormed = false := by decide
theorem test_wf_refuses_mul_b : (Instr.mul 0#8 9#8).wellFormed = false := by decide
theorem test_wf_accepts_ldi_imm_255 : (Instr.ldi 7#8 255#8).wellFormed = true := by decide

/-! ### Decode: words written out from the encodings of the instruction rules -/

theorem test_decode_hlt : decode defaultOpcodeMap [0b00000001#8] = (.instr .hlt, []) := by decide
theorem test_decode_ret : decode defaultOpcodeMap [0b00010001#8] = (.instr .ret, []) := by decide
theorem test_decode_push : decode defaultOpcodeMap [0b01000101#8, 0b00000101#8] = (.instr (.push 5#8), []) := by decide
theorem test_decode_pop : decode defaultOpcodeMap [0b01000110#8, 0b00000001#8] = (.instr (.pop 1#8), []) := by decide
/-- The source's PRN R0 (R111). -/
theorem test_decode_prn : decode defaultOpcodeMap [0b01000111#8, 0b00000000#8] = (.instr (.prn 0#8), []) := by decide
theorem test_decode_call : decode defaultOpcodeMap [0b01010000#8, 0b00000001#8] = (.instr (.call 1#8), []) := by decide
/-- The source's LDI R0,8 (R110): operand A is the register, operand B the immediate. -/
theorem test_decode_ldi :
    decode defaultOpcodeMap [0b10000010#8, 0b00000000#8, 0b00001000#8] = (.instr (.ldi 0#8 8#8), []) := by decide
theorem test_decode_add :
    decode defaultOpcodeMap [0b10100000#8, 0b00000010#8, 0b00000101#8] = (.instr (.add 2#8 5#8), []) := by decide
theorem test_decode_mul :
    decode defaultOpcodeMap [0b10100010#8, 0b00000110#8, 0b00000100#8] = (.instr (.mul 6#8 4#8), []) := by decide
/-- No high bit of a register byte is dropped (R64). -/
theorem test_decode_keeps_high_bits :
    decode defaultOpcodeMap [0b01000111#8, 0b11111111#8] = (.instr (.prn 255#8), []) := by decide
theorem test_decode_invalid_zero :
    decode defaultOpcodeMap [0x00#8, 0x01#8] = (.reject (.invalidOpcode 0x00#8), [0x01#8]) := by decide
theorem test_decode_missing_operand : decode defaultOpcodeMap [0x82#8, 0x00#8] = (.reject .missingByte, [0x00#8]) := by decide
theorem test_encode_ldi : encode defaultOpcodeMap (.ldi 3#8 0x77#8) = [0x82#8, 0x03#8, 0x77#8] := by decide
/-- Bit 0 is the least significant bit of the first byte: `82 00 08` as one number. -/
theorem test_decode_table_word_ldi : decodeTableWord 24 0x080082 = some (.ldi 0#8 8#8) := by decide
theorem test_decode_table_word_short : decodeTableWord 8 0x47 = some (.prn 0#8) := by decide
theorem test_decode_table_word_invalid : decodeTableWord 8 0xA1 = none := by decide

/-! ### One step: the vectors of 95_test_vectors.md -/

/-- 2.1: 200 + 100 wraps to 44. -/
theorem test_add_wraps :
    after (step (((at' 0x10#8 [(0x10#8, 0xA0#8), (0x11#8, 0#8), (0x12#8, 1#8)]).setReg 0 200#8).setReg 1 100#8))
      (fun t => t.getReg 0 == 44#8 && t.getReg 1 == 100#8 && t.pc == 0x13#8) = true := by decide
/-- 2.1: ADD R7,R0 with F4 and 10 gives 04. -/
theorem test_add_into_sp :
    after (step ((at' 0x10#8 [(0x10#8, 0xA0#8), (0x11#8, 7#8), (0x12#8, 0#8)]).setReg 0 0x10#8))
      (fun t => t.sp == 0x04#8 && t.getReg 0 == 0x10#8) = true := by decide
/-- 2.1: 255 * 255 gives 1. -/
theorem test_mul_wraps :
    after (step (((at' 0x10#8 [(0x10#8, 0xA2#8), (0x11#8, 0#8), (0x12#8, 1#8)]).setReg 0 255#8).setReg 1 255#8))
      (fun t => t.getReg 0 == 1#8 && t.pc == 0x13#8) = true := by decide
/-- 2.1: MUL R3,R3 squares 0F to E1. -/
theorem test_mul_squares :
    after (step ((at' 0x10#8 [(0x10#8, 0xA2#8), (0x11#8, 3#8), (0x12#8, 3#8)]).setReg 3 0x0F#8))
      (fun t => t.getReg 3 == 0xE1#8) = true := by decide
/-- 2.2: LDI at FE reads its immediate from address 00. -/
theorem test_ldi_wraps_at_top :
    after (step (at' 0xFE#8 [(0xFE#8, 0x82#8), (0xFF#8, 3#8), (0x00#8, 0x77#8)]))
      (fun t => t.getReg 3 == 0x77#8 && t.pc == 0x01#8) = true := by decide
/-- 2.6: LDI R8,5 is the InvalidRegister halt. -/
theorem test_ldi_invalid_register :
    after (step (at' 0x10#8 [(0x10#8, 0x82#8), (0x11#8, 8#8), (0x12#8, 5#8)]))
      (fun t => t.run == .halted && t.haltReason.code == 3#2 && t.errPc == 0x10#8 && t.errByte == 0x08#8 && t.pc == 0x10#8) =
      true := by decide
/-- 2.2: PRN at FF takes its operand from address 00. -/
theorem test_prn_wraps_at_top :
    after (step ((at' 0xFF#8 [(0xFF#8, 0x47#8)]).setReg 0 0xC8#8))
      (fun t => t.out == [0xC8#8] && t.pc == 0x01#8) = true := by decide
/-- 2.6: PRN of FF emits nothing. -/
theorem test_prn_invalid_register :
    after (step (at' 0x10#8 [(0x10#8, 0x47#8), (0x11#8, 0xFF#8)]))
      (fun t => t.haltReason == .invalidRegister && t.errByte == 0xFF#8 && t.out == []) = true := by decide
/-- 2.2: HLT at FF leaves `pc` 00. -/
theorem test_hlt_at_top :
    after (step (at' 0xFF#8 [(0xFF#8, 0x01#8)]))
      (fun t => t.run == .halted && t.haltReason.code == 1#2 && t.pc == 0x00#8 && t.errPc == 0#8) = true := by decide
/-- 2.3: PUSH R7 stores the decremented SP. -/
theorem test_push_sp :
    after (step (at' 0x10#8 [(0x10#8, 0x45#8), (0x11#8, 7#8)]))
      (fun t => t.sp == 0xF3#8 && t.memRead 0xF3#8 == 0xF3#8 && t.pc == 0x12#8) = true := by decide
/-- 2.3: a push at SP 00 wraps to FF. -/
theorem test_push_wraps :
    after (step (((at' 0x10#8 [(0x10#8, 0x45#8)]).setReg 0 0x99#8).setSp 0x00#8))
      (fun t => t.sp == 0xFF#8 && t.memRead 0xFF#8 == 0x99#8) = true := by decide
/-- 2.3: POP R7 gives the popped byte plus 1. -/
theorem test_pop_sp :
    after (step ((at' 0x10#8 [(0x10#8, 0x46#8), (0x11#8, 7#8), (0xF3#8, 0x20#8)]).setSp 0xF3#8))
      (fun t => t.sp == 0x21#8 && t.memRead 0xF3#8 == 0x20#8) = true := by decide
/-- 2.3: an empty-stack POP reads F4 and is not detected. -/
theorem test_pop_empty :
    after (step ((at' 0x10#8 [(0x10#8, 0x46#8), (0x11#8, 2#8)]).setReg 2 0x55#8))
      (fun t => t.getReg 2 == 0x00#8 && t.sp == 0xF5#8 && t.run == .running) = true := by decide
/-- 2.4: CALL R7 jumps to the decremented SP. -/
theorem test_call_sp :
    after (step (at' 0x10#8 [(0x10#8, 0x50#8), (0x11#8, 7#8)]))
      (fun t => t.sp == 0xF3#8 && t.memRead 0xF3#8 == 0x12#8 && t.pc == 0xF3#8) = true := by decide
/-- 2.4: CALL at FE pushes the return address 00. -/
theorem test_call_wraps_at_top :
    after (step ((at' 0xFE#8 [(0xFE#8, 0x50#8), (0xFF#8, 1#8), (0xF3#8, 0x66#8)]).setReg 1 0x40#8))
      (fun t => t.memRead 0xF3#8 == 0x00#8 && t.pc == 0x40#8 && t.sp == 0xF3#8) = true := by decide
/-- 2.4: RET takes the byte at F3 and moves SP back to F4. -/
theorem test_ret :
    after (step ((at' 0x0E#8 [(0x0E#8, 0x11#8), (0xF3#8, 0x08#8)]).setSp 0xF3#8))
      (fun t => t.pc == 0x08#8 && t.sp == 0xF4#8) = true := by decide
/-- 2.4: RET at SP FF wraps SP to 00. -/
theorem test_ret_wraps :
    after (step ((at' 0x10#8 [(0x10#8, 0x11#8), (0xFF#8, 0x21#8)]).setSp 0xFF#8))
      (fun t => t.pc == 0x21#8 && t.sp == 0x00#8) = true := by decide
/-- 2.6: C0 is an invalid opcode; `pc` stays. -/
theorem test_invalid_opcode :
    after (step (at' 0x10#8 [(0x10#8, 0xC0#8)]))
      (fun t => t.run == .halted && t.haltReason.code == 2#2 && t.errPc == 0x10#8 && t.errByte == 0xC0#8 && t.pc == 0x10#8) =
      true := by decide
/-- 2.6: operand A is reported before operand B. -/
theorem test_invalid_register_order :
    after (step (at' 0x10#8 [(0x10#8, 0xA0#8), (0x11#8, 8#8), (0x12#8, 9#8)])) (fun t => t.errByte == 0x08#8) = true := by decide
/-- 2.6: a valid operand A leaves operand B to report. -/
theorem test_invalid_register_second :
    after (step (at' 0x10#8 [(0x10#8, 0xA0#8), (0x11#8, 0#8), (0x12#8, 9#8)])) (fun t => t.errByte == 0x09#8) = true := by decide

/-! ### Memory and reset -/

/-- Writing the value an unlisted address reads as removes the entry. -/
theorem test_write_zero_removes : Memory.write [(3, 5#8), (7, 9#8)] 3#8 0#8 = [(7, 9#8)] := by decide
theorem test_write_inserts_in_order : Memory.write [(3, 5#8), (7, 9#8)] 5#8 1#8 = [(3, 5#8), (5, 1#8), (7, 9#8)] := by decide
theorem reset_memory_wf : State.reset.mem.wf := by decide
/-- R163 on the source's example E1: the launch memory is the program and 0x00 above it. -/
theorem test_launch_memory :
    (launch [0x82#8, 0x00#8, 0x08#8, 0x47#8, 0x00#8, 0x01#8]).mem = [(0, 0x82#8), (2, 0x08#8), (3, 0x47#8), (5, 0x01#8)] := by decide
/-- R160: reset of a halted machine clears it and holds it. -/
theorem test_reset_of_halted :
    sampleInputs { rst := true, loadWe := false, loadAddr := 0#8, loadData := 0#8, loadCount := 0#9 }
      ((at' 0x10#8 [(0x10#8, 0xC0#8)]).raiseHalt .invalidOpcode 0xC0#8) = heldState := by decide
/-- A word placed where the next step fetches. -/
theorem test_with_fetch_word :
    after (step (State.reset.withFetchWord 24 0x080082)) (fun t => t.getReg 0 == 8#8 && t.pc == 3#8) = true := by decide

/-! ### Witnesses: the hypotheses of the statements can be met, each clause by itself -/

/-- A legal opcode map that is not the default: ADD and MUL, PUSH and POP exchanged. -/
def otherMap : OpcodeMap :=
  { defaultOpcodeMap with add := 0xA2#8, mul := 0xA0#8, push := 0x46#8, pop := 0x45#8 }

theorem witness_DecoderRecognisesExactlyNineBytes :
    (0xA2#8, Opcode.mul) ∈ [(0x01#8, Opcode.hlt), (0xA2#8, .mul)] ∧ Opcode.ret ∈ [Opcode.hlt, .ret] ∧
    Opcode.call ∈ [Opcode.push, .pop, .prn, .call] ∧ Opcode.mul ∈ [Opcode.add, .mul] := by decide

theorem witness_EveryOtherByteIsInvalid :
    (∀ ir ∈ [0x00#8, 0x12#8, 0xA1#8, 0xFF#8],
      ir ∉ [0x01#8, 0x11#8, 0x45#8, 0x46#8, 0x47#8, 0x50#8, 0x82#8, 0xA0#8, 0xA2#8] ∧
      (at' 0xFF#8 [(0xFF#8, ir)]).run = .running ∧ (at' 0xFF#8 [(0xFF#8, ir)]).memRead 0xFF#8 = ir) ∧
    (3, 64) ∈ [(0, 62), (1, 60), (2, 61), (3, 64)] := by decide

theorem witness_DecodeOfEncodeIsTheInstruction : defaultOpcodeMap.Legal ∧ otherMap.Legal := by decide

theorem witness_DecodedBytesAreTheEncoding :
    defaultOpcodeMap.Legal ∧
    decode defaultOpcodeMap [0x82#8, 0xFF#8, 0xFF#8, 0x01#8] = (.instr (.ldi 0xFF#8 0xFF#8), [0x01#8]) := by decide

theorem witness_LengthFromTopTwoBits :
    otherMap.Legal ∧ operandCount 0xC0#8 = 3 ∧ operandCount 0xFF#8 = 3 ∧
    (at' 0x10#8 [(0x10#8, 0xC0#8)]).run = .running ∧
    operandCount ((at' 0x10#8 [(0x10#8, 0xC0#8)]).memRead (at' 0x10#8 [(0x10#8, 0xC0#8)]).pc) = 3 := by decide

theorem witness_StepRunsTheDecodedInstruction :
    (at' 0xFE#8 [(0xFE#8, 0x82#8), (0xFF#8, 3#8), (0x00#8, 0x77#8)]).run = .running ∧
    fetchDecode defaultOpcodeMap (at' 0xFE#8 [(0xFE#8, 0x82#8), (0xFF#8, 3#8), (0x00#8, 0x77#8)]) =
      .instr (.ldi 3#8 0x77#8) ∧
    defaultOpcodeMap.Legal ∧
    (∀ k ∈ List.range 3, (encode defaultOpcodeMap (.ldi 3#8 0x77#8))[k]? =
      some ((at' 0xFE#8 [(0xFE#8, 0x82#8), (0xFF#8, 3#8), (0x00#8, 0x77#8)]).memRead (0xFE#8 + BitVec.ofNat 8 k))) := by decide

theorem witness_PlacedWordIsRun :
    State.reset.mem.wf ∧ decodeTableWord 8 0x01 = some .hlt ∧ decodeTableWord 24 0xFF0782 = some (.ldi 7#8 0xFF#8) := by decide

theorem witness_UnknownByteTakesInvalidOpcodeHalt :
    State.reset.run = .running ∧ defaultOpcodeMap.lookup (State.reset.memRead State.reset.pc) = none := by decide

/-- One state for each clause: an unknown byte; operand A at 8 and at 255; operand B at 8 with A at 7; HLT. -/
theorem witness_RegisterOperandsCheckedInOrder :
    defaultOpcodeMap.lookup (fetch (at' 0x10#8 [(0x10#8, 0x48#8)])).ir = none ∧
    (defaultOpcodeMap.lookup (fetch (at' 0x10#8 [(0x10#8, 0x50#8), (0x11#8, 8#8)])).ir = some .call ∧
      8 ≤ (fetch (at' 0x10#8 [(0x10#8, 0x50#8), (0x11#8, 8#8)])).a.toNat) ∧
    8 ≤ (fetch (at' 0x10#8 [(0x10#8, 0x50#8), (0x11#8, 255#8)])).a.toNat ∧
    (defaultOpcodeMap.lookup (fetch (at' 0x10#8 [(0x10#8, 0xA2#8), (0x11#8, 7#8), (0x12#8, 8#8)])).ir = some .mul ∧
      (fetch (at' 0x10#8 [(0x10#8, 0xA2#8), (0x11#8, 7#8), (0x12#8, 8#8)])).a.toNat < 8 ∧
      8 ≤ (fetch (at' 0x10#8 [(0x10#8, 0xA2#8), (0x11#8, 7#8), (0x12#8, 8#8)])).b.toNat) ∧
    defaultOpcodeMap.lookup (fetch (at' 0x10#8 [(0x10#8, 0x01#8)])).ir = some .hlt ∧
    (at' 0x10#8 [(0x10#8, 0x01#8)]).run = .running := by decide

theorem witness_EngineHaltsForThreeReasonsOnly : State.reset.run = .running := by decide

theorem witness_StepExistsExactlyWhileRunning :
    (State.reset.halt .hlt).run = .halted ∧
    ({ rst := false, loadWe := true, loadAddr := 0#8, loadData := 1#8, loadCount := 1#9 } : InputPorts).rst = false ∧
    ({ rst := true, loadWe := true, loadAddr := 0#8, loadData := 1#8, loadCount := 1#9 } : InputPorts).rst = true := by decide

/-- One Running state for each clause: HLT at the top of memory, CALL, RET, an invalid register, an invalid opcode. -/
theorem witness_PcAdvancesByLengthExceptCallRet :
    defaultOpcodeMap.Legal ∧
    (fetchDecode defaultOpcodeMap (at' 0xFF#8 [(0xFF#8, 0x01#8)]) = .instr .hlt ∧ Instr.hlt.wellFormed = true ∧
      Instr.hlt.opcode ≠ .call ∧ Instr.hlt.opcode ≠ .ret ∧
      after (engineStep defaultOpcodeMap (at' 0xFF#8 [(0xFF#8, 0x01#8)])) (fun _ => true) = true) ∧
    (fetchDecode defaultOpcodeMap (at' 0x10#8 [(0x10#8, 0x50#8), (0x11#8, 7#8)]) = .instr (.call (regByte 7)) ∧
      after (engineStep defaultOpcodeMap (at' 0x10#8 [(0x10#8, 0x50#8), (0x11#8, 7#8)])) (fun _ => true) = true) ∧
    (fetchDecode defaultOpcodeMap (at' 0x10#8 [(0x10#8, 0x11#8)]) = .instr .ret ∧
      after (engineStep defaultOpcodeMap (at' 0x10#8 [(0x10#8, 0x11#8)])) (fun _ => true) = true) ∧
    (fetchDecode defaultOpcodeMap (at' 0x10#8 [(0x10#8, 0x47#8), (0x11#8, 8#8)]) = .instr (.prn 8#8) ∧
      (Instr.prn 8#8).wellFormed = false ∧
      after (engineStep defaultOpcodeMap (at' 0x10#8 [(0x10#8, 0x47#8), (0x11#8, 8#8)])) (fun _ => true) = true) ∧
    (fetchDecode defaultOpcodeMap State.reset = .reject (.invalidOpcode 0#8) ∧
      after (engineStep defaultOpcodeMap State.reset) (fun _ => true) = true) := by decide

theorem witness_StepWritesOnlyTheNamedRegisters :
    after (engineStep defaultOpcodeMap (at' 0x10#8 [(0x10#8, 0x46#8), (0x11#8, 2#8)])) (fun _ => true) = true ∧
    (4 : RegIdx) ∉ writesAt defaultOpcodeMap (at' 0x10#8 [(0x10#8, 0x46#8), (0x11#8, 2#8)]) ∧
    fetchDecode defaultOpcodeMap (at' 0x10#8 [(0x10#8, 0x46#8), (0x11#8, 2#8)]) = .instr (.pop 2#8) ∧
    regByte 4 ∉ (Instr.pop 2#8).regOperands := by decide

/-- Two states that differ in registers the step does not read, in `out` and in the diagnostic registers. -/
theorem witness_StepReadsOnlyPcMemoryNamedRegistersAndRun :
    let s := at' 0x10#8 [(0x10#8, 0x47#8), (0x11#8, 2#8)]
    let t := { (s.setReg 4 9#8).emit 1#8 with errPc := 7#8 }
    s ≠ t ∧ s.run = .running ∧ t.run = .running ∧ t.pc = s.pc ∧ t.mem = s.mem ∧
    ∀ r ∈ readsAt defaultOpcodeMap s, t.getReg r = s.getReg r := by decide

theorem witness_LoadCountIsNeverRead : State.reset.run = .running := by decide

theorem witness_OnlyPushAndCallWriteMemory :
    after (engineStep defaultOpcodeMap ((at' 0x10#8 [(0x10#8, 0x45#8)]).setReg 0 9#8))
      (fun t => t.memRead 0xF3#8 != ((at' 0x10#8 [(0x10#8, 0x45#8)]).setReg 0 9#8).memRead 0xF3#8) = true := by decide

theorem witness_OutputGrowsOnlyByPrn :
    (State.reset.emit 1#8).run ≠ .heldInReset ∧ heldState.run = .heldInReset ∧
    (after (engineStep defaultOpcodeMap (at' 0x10#8 [(0x10#8, 0x47#8), (0x11#8, 7#8)])) (fun _ => true) = true ∧
      fetchDecode defaultOpcodeMap (at' 0x10#8 [(0x10#8, 0x47#8), (0x11#8, 7#8)]) = .instr (.prn (regByte 7))) ∧
    (after (engineStep defaultOpcodeMap State.reset) (fun _ => true) = true ∧
      ∀ r : RegIdx, fetchDecode defaultOpcodeMap State.reset ≠ .instr (.prn (regByte r))) := by decide

/-- The InvalidRegister clauses at both ends of their ranges: operand A, then operand B with A valid. -/
theorem witness_AddWritesTheSumMod256 :
    8 ≤ (8#8).toNat ∧ 8 ≤ (255#8).toNat ∧ ((7#8).toNat < 8 ∧ 8 ≤ (8#8).toNat) ∧ ((0#8).toNat < 8 ∧ 8 ≤ (255#8).toNat) ∧
    after (exec (.add 7#8 8#8) State.reset) (fun t => t.errByte == 8#8) = true := by decide

theorem witness_MulWritesTheProductMod256 :
    8 ≤ (8#8).toNat ∧ 8 ≤ (255#8).toNat ∧ ((7#8).toNat < 8 ∧ 8 ≤ (255#8).toNat) ∧
    after (exec (.mul 255#8 8#8) State.reset) (fun t => t.errByte == 255#8) = true := by decide

theorem witness_LdiLoadsTheImmediate :
    8 ≤ (8#8).toNat ∧ 8 ≤ (255#8).toNat ∧
    after (exec (.ldi 8#8 255#8) State.reset) (fun t => t.errByte == 8#8) = true := by decide

theorem witness_PrnEmitsTheRegister :
    8 ≤ (8#8).toNat ∧ 8 ≤ (255#8).toNat ∧
    after (exec (.prn 255#8) State.reset) (fun t => t.errByte == 255#8) = true := by decide

theorem witness_PushStoresBelowTheStackPointer : (State.reset.setSp 0#8).mem.wf ∧ 8 ≤ (8#8).toNat := by decide

theorem witness_PopLoadsFromTheStackPointer :
    (0 : RegIdx) ≠ Config.spIndex ∧ (7 : RegIdx) = Config.spIndex ∧ 8 ≤ (8#8).toNat := by decide

theorem witness_CallPushesTheReturnAddressAndJumps : (at' 0xFE#8 [(0xFE#8, 0x50#8)]).mem.wf ∧ 8 ≤ (8#8).toNat := by decide

/-- One decoded instruction and next state for each clause. -/
theorem witness_StackPointerMovesByOne :
    (fetchDecode defaultOpcodeMap (at' 0x10#8 [(0x10#8, 0x45#8), (0x11#8, 7#8)]) = .instr (.push 7#8) ∧
      (Instr.push 7#8).opcode ∈ [Opcode.push, .call] ∧ (Instr.push 7#8).wellFormed = true) ∧
    fetchDecode defaultOpcodeMap (at' 0x10#8 [(0x10#8, 0x50#8), (0x11#8, 7#8)]) = .instr (.call 7#8) ∧
    fetchDecode defaultOpcodeMap (at' 0x10#8 [(0x10#8, 0x11#8)]) = .instr .ret ∧
    (fetchDecode defaultOpcodeMap (at' 0x10#8 [(0x10#8, 0x46#8), (0x11#8, 6#8)]) = .instr (.pop (regByte 6)) ∧
      (6 : RegIdx) ≠ Config.spIndex) ∧
    fetchDecode defaultOpcodeMap (at' 0x10#8 [(0x10#8, 0x47#8), (0x11#8, 7#8)]) = .instr (.prn 7#8) ∧
    (fetchDecode defaultOpcodeMap (at' 0x10#8 [(0x10#8, 0xA0#8), (0x11#8, 6#8), (0x12#8, 7#8)]) = .instr (.add 6#8 7#8) ∧
      Config.spIndex ∉ Instr.regWrites (.add 6#8 7#8)) ∧
    (fetchDecode defaultOpcodeMap (at' 0x10#8 [(0x10#8, 0x45#8), (0x11#8, 8#8)]) = .instr (.push 8#8) ∧
      (Instr.push 8#8).wellFormed = false ∧
      after (engineStep defaultOpcodeMap (at' 0x10#8 [(0x10#8, 0x45#8), (0x11#8, 8#8)])) (fun _ => true) = true) := by
  decide

/-- Balanced code of depth 2, a CALL and RET inside a PUSH and POP, and the bounds of the depth. -/
theorem witness_StackIsLastInFirstOut :
    Balanced 2 [.push (regByte 0), .call (regByte 7), .ldi (regByte 1) 5#8, .ret, .pop (regByte 2)] ∧
    Balanced 0 [] ∧ 2 ≤ 256 ∧ 2 < 256 ∧ State.reset.mem.wf ∧ (0 : RegIdx) ≠ Config.spIndex ∧ (6 : RegIdx) ≠ Config.spIndex :=
  ⟨.pushPop 0 2 (by decide) (by decide) (.callRet 7 (.neutral _ (by decide) .nil) .nil) .nil, .nil, by decide⟩

theorem witness_RetResumesAfterTheCall :
    ∃ t u : State, State.reset.mem.wf ∧ exec (.call (regByte 7)) State.reset = .next t ∧ u = (t.emit 5#8).setPc 9#8 ∧
      u.sp = t.sp ∧ u.memRead u.sp = t.memRead t.sp := ⟨_, _, by decide, rfl, rfl, rfl, rfl⟩

/-- A push over the byte the next fetch reads, as instruction byte and as each operand. -/
theorem witness_FetchSeesStoredBytes :
    (∃ t : State, State.reset.mem.wf ∧ exec (.push (regByte 7)) State.reset = .next t) ∧
    (∃ t : State, exec (.call (regByte 7)) State.reset = .next t) ∧
    (at' 0xF3#8 []).pc = State.reset.sp - 1#8 ∧
    ((at' 0xF2#8 [(0xF2#8, 0x47#8)]).pc + 1#8 = State.reset.sp - 1#8 ∧
      1 ≤ operandCount (fetch (at' 0xF2#8 [(0xF2#8, 0x47#8)])).ir) ∧
    ((at' 0xF1#8 [(0xF1#8, 0x82#8)]).pc + 2#8 = State.reset.sp - 1#8 ∧
      operandCount (fetch (at' 0xF1#8 [(0xF1#8, 0x82#8)])).ir = 2) :=
  ⟨⟨_, by decide, rfl⟩, ⟨_, rfl⟩, by decide⟩

theorem witness_WriteSetsItsCellOnly : (at' 0#8 [(0xFF#8, 1#8), (0x00#8, 2#8)]).mem.wf ∧ 0xFF#8 ≠ 0x00#8 := by decide

theorem witness_MemoryAccessIsIdempotent : (at' 0#8 [(0xFF#8, 1#8), (0x00#8, 2#8)]).mem.wf := by decide

theorem witness_EqualReadsAreEqualMemories :
    Memory.wf [(0, 2#8), (255, 1#8)] ∧ (at' 0#8 [(0xFF#8, 1#8), (0x00#8, 2#8)]).mem = [(0, 2#8), (255, 1#8)] := by decide

theorem witness_ResetGivesTheResetValues :
    ({ rst := true, loadWe := true, loadAddr := 0xFF#8, loadData := 1#8, loadCount := 1#9 } : InputPorts).rst = true ∧
    ({ rst := true, loadWe := false, loadAddr := 0xFF#8, loadData := 1#8, loadCount := 1#9 } : InputPorts).loadWe = false ∧
    (State.reset.halt .hlt).run ≠ .heldInReset ∧ State.reset.run ≠ .heldInReset := by decide

theorem witness_LoadPortWritesOnlyDuringReset :
    heldState.run = .heldInReset ∧ heldState.mem.wf ∧
    ({ rst := true, loadWe := true, loadAddr := 0xFF#8, loadData := 1#8, loadCount := 1#9 } : InputPorts).loadWe = true ∧
    ({ rst := true, loadWe := false, loadAddr := 0xFF#8, loadData := 1#8, loadCount := 1#9 } : InputPorts).rst = true ∧
    ({ rst := false, loadWe := true, loadAddr := 0xFF#8, loadData := 1#8, loadCount := 1#9 } : InputPorts).rst = false := by decide

theorem witness_StartRunsFromAddressZero :
    heldState.run = .heldInReset ∧
    ({ rst := false, loadWe := true, loadAddr := 0xFF#8, loadData := 1#8, loadCount := 1#9 } : InputPorts).rst = false := by decide

theorem witness_HostLoadReachesTheLaunchState :
    ([] : List Byte).length ≤ 256 ∧ (List.replicate 256 (1#8)).length ≤ 256 ∧ State.reset.run ≠ .heldInReset :=
  ⟨by decide, by rw [List.length_replicate], by decide⟩

/-- States that meet the invariant, one for each run state, the Running one with a next state. -/
theorem witness_EveryStepKeepsTheInvariant :
    Inv defaultOpcodeMap (at' 0xFE#8 [(0xFE#8, 0x45#8), (0xFF#8, 7#8)]) ∧
    after (step (at' 0xFE#8 [(0xFE#8, 0x45#8), (0xFF#8, 7#8)])) (fun _ => true) = true ∧
    after (step (at' 0xFE#8 [(0xFE#8, 0xA0#8), (0xFF#8, 7#8), (0x00#8, 8#8)])) (fun t => Inv defaultOpcodeMap t) = true := by
  decide

theorem witness_PortsKeepTheInvariant : Inv otherMap heldState ∧ Inv otherMap State.reset := ⟨by decide, by decide⟩

end Sys2Proof.Tests
end

section
/-! SUPPORT. Rules the obligations of 10_state.md need: one equation per instruction on valid registers, what sampling the
input ports does in each case, and what a step appends to `out`. -/
namespace Sys2Proof.Machine

/-! ### What each instruction computes on valid registers

`exec_cases` says this of one state; the equations say it of every state, so that two runs can be compared. -/

@[simp] theorem exec_hlt (s : State) : exec .hlt s = .next ((s.halt .hlt).advance .hlt) := rfl

@[simp] theorem exec_ret (s : State) : exec .ret s = .next (s.setPc (s.memRead s.sp)).incSp := rfl

@[simp] theorem exec_push_regByte (s : State) (r : RegIdx) :
    exec (.push (regByte r)) s = .next ((s.decSp.memWrite (s.sp - 1#8) (s.decSp.getReg r)).advance .push) := by
  simp [exec, execPush, pushValue_eq]

@[simp] theorem exec_pop_regByte (s : State) (r : RegIdx) :
    exec (.pop (regByte r)) s = .next ((s.setReg r (s.memRead s.sp)).incSp.advance .pop) := by
  simp [exec, execPop]

@[simp] theorem exec_prn_regByte (s : State) (r : RegIdx) :
    exec (.prn (regByte r)) s = .next ((s.emit (s.getReg r)).advance .prn) := by
  simp [exec, execPrn]

@[simp] theorem exec_call_regByte (s : State) (r : RegIdx) :
    exec (.call (regByte r)) s =
      .next ((s.decSp.memWrite (s.sp - 1#8) (s.pc + 2#8)).setPc (s.decSp.getReg r)) := by
  simp [exec, execCall, pushValue_eq, returnAddress]

@[simp] theorem exec_ldi_regByte (s : State) (r : RegIdx) (v : Byte) :
    exec (.ldi (regByte r) v) s = .next ((s.setReg r v).advance .ldi) := by
  simp [exec, execLdi]

@[simp] theorem exec_add_regByte (s : State) (r q : RegIdx) :
    exec (.add (regByte r) (regByte q)) s = .next ((s.setReg r (s.getReg r + s.getReg q)).advance .add) := by
  simp [exec, execAdd, aluApply, aluAdd_eq]

@[simp] theorem exec_mul_regByte (s : State) (r q : RegIdx) :
    exec (.mul (regByte r) (regByte q)) s = .next ((s.setReg r (s.getReg r * s.getReg q)).advance .mul) := by
  simp [exec, execMul, aluApply, aluMul_eq]

/-! ### The input ports, one equation per case of `sampleInputs` (R160 to R162) -/

theorem sampleInputs_reset {p : InputPorts} {s : State} (hp : p.rst = true) (hs : s.run ≠ .heldInReset) :
    sampleInputs p s = loadPort p heldState := by
  simp [sampleInputs, hp, hs]

theorem sampleInputs_load {p : InputPorts} {s : State} (hp : p.rst = true) (hs : s.run = .heldInReset) :
    sampleInputs p s = loadPort p s := by
  simp [sampleInputs, hp, hs]

theorem sampleInputs_start {p : InputPorts} {s : State} (hp : p.rst = false) (hs : s.run = .heldInReset) :
    sampleInputs p s = startRunning s := by
  simp [sampleInputs, hp, hs]

theorem sampleInputs_idle {p : InputPorts} {s : State} (hp : p.rst = false) (hs : s.run ≠ .heldInReset) :
    sampleInputs p s = s := by
  simp [sampleInputs, hp, hs]

@[simp] theorem loadPort_out (p : InputPorts) (s : State) : (loadPort p s).out = s.out := by
  cases h : p.loadWe <;> simp [loadPort, h]

@[simp] theorem startRunning_out (s : State) : (startRunning s).out = s.out := rfl

@[simp] theorem heldState_out : heldState.out = [] := rfl

/-! ### The output port and `out` (R29, R33) -/

theorem outPort_of_out_eq {s t : State} (h : t.out = s.out) : outPort s t = none := by
  simp [outPort, h]

theorem outPort_of_out_append {s t : State} {v : Byte} (h : t.out = s.out ++ [v]) : outPort s t = some v := by
  simp [outPort, h]

/-- PRN of a valid register appends its byte. -/
theorem exec_prn_out {s t : State} {r : RegIdx} (h : exec (.prn (regByte r)) s = .next t) :
    t.out = s.out ++ [s.getReg r] := by
  cases (exec_prn_regByte s r).symm.trans h
  simp

/-- Every other instruction, a PRN of no register among them, leaves `out`. -/
theorem exec_out_of_ne_prn {i : Instr} {s t : State} (hi : ∀ r, i ≠ .prn (regByte r)) (h : exec i s = .next t) :
    t.out = s.out := by
  rcases exec_cases i s with ⟨_, -, -, -, he⟩ | ⟨-, he⟩ | ⟨-, he⟩ | ⟨_, -, he⟩ | ⟨_, -, he⟩ | ⟨r, hr, -⟩ |
    ⟨_, -, he⟩ | ⟨_, _, -, he⟩ | ⟨_, _, -, he⟩ | ⟨_, _, -, he⟩
  pick_goal 6
  · exact absurd hr (hi r)
  all_goals
    cases he.symm.trans h
    simp

/-- A step that does not decode a PRN of a register leaves `out`. -/
theorem engineStep_out_of_ne_prn {m : OpcodeMap} {s t : State} (h : engineStep m s = .next t)
    (hd : ∀ r, fetchDecode m s ≠ .instr (.prn (regByte r))) : t.out = s.out := by
  have hrun := running_of_engineStep_next h
  cases hi : fetchDecode m s with
  | reject e =>
    cases (engineStep_of_reject hrun hi).symm.trans h
    simp
  | instr i =>
    refine exec_out_of_ne_prn (fun r hr => hd r ?_) ((engineStep_of_instr hrun hi).symm.trans h)
    rw [hi, hr]

/-! ### The load-count latch (R31) -/

/-- Fetch and decode read `pc` and memory alone. -/
theorem fetchDecode_withLoadCount (m : OpcodeMap) (s : State) (c : BitVec 9) :
    fetchDecode m { s with loadCount := c } = fetchDecode m s := rfl

/-- An instruction keeps the latch and computes the same whatever the latch holds. -/
theorem exec_ignores_loadCount (i : Instr) (s : State) (c : BitVec 9) :
    ∃ t, exec i s = .next t ∧ t.loadCount = s.loadCount ∧
      exec i { s with loadCount := c } = .next { t with loadCount := c } := by
  rcases exec_cases i s with ⟨_, -, -, hinv, -⟩ | ⟨rfl, -⟩ | ⟨rfl, -⟩ | ⟨r, rfl, -⟩ | ⟨r, rfl, -⟩ | ⟨r, rfl, -⟩ |
    ⟨r, rfl, -⟩ | ⟨r, v, rfl, -⟩ | ⟨r, q, rfl, -⟩ | ⟨r, q, rfl, -⟩
  · exact ⟨_, exec_of_invalid i s hinv, rfl, exec_of_invalid i _ hinv⟩
  · exact ⟨_, exec_hlt s, rfl, exec_hlt _⟩
  · exact ⟨_, exec_ret s, rfl, exec_ret _⟩
  · exact ⟨_, exec_push_regByte s r, rfl, exec_push_regByte _ r⟩
  · exact ⟨_, exec_pop_regByte s r, rfl, exec_pop_regByte _ r⟩
  · exact ⟨_, exec_prn_regByte s r, rfl, exec_prn_regByte _ r⟩
  · exact ⟨_, exec_call_regByte s r, rfl, exec_call_regByte _ r⟩
  · exact ⟨_, exec_ldi_regByte s r v, rfl, exec_ldi_regByte _ r v⟩
  · exact ⟨_, exec_add_regByte s r q, rfl, exec_add_regByte _ r q⟩
  · exact ⟨_, exec_mul_regByte s r q, rfl, exec_mul_regByte _ r q⟩

/-! ### Halt codes and the invariant at reset -/

/-- Different halt reasons have different codes (R27). -/
theorem HaltReason.code_inj {a b : HaltReason} : a.code = b.code ↔ a = b := by
  cases a <;> cases b <;> decide

/-- Reset meets the invariant under every opcode map: only a record in Halted reads the map. -/
theorem inv_reset (m : OpcodeMap) : Inv m State.reset :=
  ⟨by decide, fun _ => ⟨rfl, rfl, rfl⟩, nofun, nofun⟩

end Sys2Proof.Machine
end

section
/-! The obligations of 10_state.md. -/
namespace Sys2Proof.Machine

/-- Settles O17: fetch and decode do not read the latch, so both runs take the same branch, and no branch reads it. -/
theorem loadCountIsNeverRead : Obligations.LoadCountIsNeverRead := by
  intro m s c hrun
  have hrun' : ({ s with loadCount := c } : State).run = .running := hrun
  have hsame := fetchDecode_withLoadCount m s c
  cases hd : fetchDecode m s with
  | reject e => exact ⟨_, engineStep_of_reject hrun hd, rfl, engineStep_of_reject hrun' (hsame.trans hd)⟩
  | instr i =>
    obtain ⟨t, ht, hkeep, htc⟩ := exec_ignores_loadCount i s c
    exact ⟨t, (engineStep_of_instr hrun hd).trans ht, hkeep,
      (engineStep_of_instr hrun' (hsame.trans hd)).trans htc⟩

/-- Settles O19, the ports by the cases of `sampleInputs`, a step by whether it decodes a PRN of a register. -/
theorem outputGrowsOnlyByPrn : Obligations.OutputGrowsOnlyByPrn := by
  refine ⟨rfl, fun p s hp hs => ?reset, fun p s h => ?otherwise, fun m s t h => ⟨fun r hd => ?prn, fun hd => ?other⟩⟩
  case reset => simp [sampleInputs_reset hp hs]
  case otherwise =>
    by_cases hs : s.run = .heldInReset
    · cases hp : p.rst with
      | true => simp [sampleInputs_load hp hs]
      | false => simp [sampleInputs_start hp hs]
    · rw [sampleInputs_idle (h.resolve_right hs) hs]
  case prn =>
    have hrun := running_of_engineStep_next h
    have hout := exec_prn_out ((engineStep_of_instr hrun hd).symm.trans h)
    exact ⟨hout, outPort_of_out_append hout⟩
  case other =>
    have hout := engineStep_out_of_ne_prn h hd
    exact ⟨hout, outPort_of_out_eq hout⟩

/-- Settles O39: the registers one by one, every other value by its definition. -/
theorem resetStateIsAsTabled : Obligations.ResetStateIsAsTabled :=
  ⟨by decide, rfl, rfl, Memory.read_nil, rfl, rfl, rfl, rfl, rfl, rfl⟩

/-- Settles O43: each value of the reason port is the code of one reason, and of no other by `HaltReason.code_inj`. -/
theorem statusPortsShowTheStatus : Obligations.StatusPortsShowTheStatus := fun _ =>
  ⟨decide_eq_true_iff, decide_eq_true_iff, rfl, rfl,
    HaltReason.code_inj (b := .none), HaltReason.code_inj (b := .hlt),
    HaltReason.code_inj (b := .invalidOpcode), HaltReason.code_inj (b := .invalidRegister)⟩

/-- Settles O44, at the default map. -/
theorem invariantHoldsAtReset : Obligations.InvariantHoldsAtReset := inv_reset defaultOpcodeMap

end Sys2Proof.Machine
end

section
/-! SUPPORT. Rules the obligations of 20_memory.md need: what a canonical memory lists, how two writes combine, what a push
leaves in memory, and where a fetch takes its operands from. -/
namespace Sys2Proof.Machine

/-! ### Canonical memories -/

/-- A canonical memory lists exactly the bytes that differ from what an unlisted address reads as (R40, R48). -/
theorem Memory.mem_iff_readAt {m : Memory} (h : m.wf) (k : Nat) (w : Byte) :
    (k, w) ∈ m ↔ w ≠ Memory.unlisted ∧ m.readAt k = w := by
  induction m with
  | nil =>
    simp only [List.not_mem_nil, false_iff, not_and]
    exact fun hw he => hw he.symm
  | cons c rest ih =>
    obtain ⟨j, v⟩ := c
    have hv : v ≠ Memory.unlisted := (h.2 (j, v) List.mem_cons_self).2
    by_cases hj : j = k
    · subst hj
      have hrest : (j, w) ∉ rest := fun hmem => lt_irrefl j (Memory.wf_head_lt h _ hmem)
      rw [List.mem_cons, or_iff_left hrest, Memory.readAt_head, Prod.mk.injEq]
      exact ⟨fun ⟨_, e⟩ => ⟨e ▸ hv, e.symm⟩, fun ⟨_, e⟩ => ⟨rfl, e.symm⟩⟩
    · have hhead : (k, w) ≠ (j, v) := fun e => hj (congrArg Prod.fst e).symm
      rw [List.mem_cons, or_iff_right hhead, Memory.readAt_cons_ne j v rest k hj]
      exact ih (Memory.wf_tail h)

/-- The list read of one of the 256 addresses is the read of the byte that names it (R40). -/
theorem Memory.readAt_eq_read (m : Memory) {k : Nat} (hk : k < Config.memSize) :
    m.readAt k = m.read (BitVec.ofNat 8 k) := by
  rw [Memory.read, BitVec.toNat_ofNat, Nat.mod_eq_of_lt (show k < 2 ^ 8 from hk)]

/-- No entry of a canonical memory lies past the 256 addresses (R40). -/
theorem Memory.readAt_of_ge {m : Memory} (h : m.wf) {k : Nat} (hk : Config.memSize ≤ k) :
    m.readAt k = Memory.unlisted := by
  by_contra hne
  have hlt : k < Config.memSize := (h.2 _ ((Memory.mem_iff_readAt h k _).mpr ⟨hne, rfl⟩)).1
  omega

/-- Canonical memories are extensional: both lists rise strictly in their addresses and have the same entries. -/
theorem Memory.ext_read {m n : Memory} (hm : m.wf) (hn : n.wf) (h : ∀ a : Byte, m.read a = n.read a) : m = n := by
  have hread : ∀ k, m.readAt k = n.readAt k := fun k => by
    by_cases hk : k < Config.memSize
    · rw [m.readAt_eq_read hk, n.readAt_eq_read hk, h]
    · rw [Memory.readAt_of_ge hm (not_lt.mp hk), Memory.readAt_of_ge hn (not_lt.mp hk)]
  have : Std.Asymm fun c d : Host.Cell => c.1 < d.1 := ⟨fun _ _ => lt_asymm⟩
  refine hm.1.eq_of_mem_iff hn.1 fun ⟨k, w⟩ => ?_
  rw [Memory.mem_iff_readAt hm, Memory.mem_iff_readAt hn, hread]

/-- Of two writes to one cell the last counts (R43). -/
theorem Memory.write_write {m : Memory} (h : m.wf) (a v w : Byte) : (m.write a v).write a w = m.write a w := by
  have hv := Memory.write_wf m a v h
  refine Memory.ext_read (Memory.write_wf _ a w hv) (Memory.write_wf m a w h) fun b => ?_
  rw [Memory.read_write _ a b w hv, Memory.read_write m a b w h]
  split
  · rfl
  · next hb => exact Memory.read_write_ne m a b v hb

/-- Writing back the byte a cell holds leaves the memory as it was (R47). -/
theorem Memory.write_read {m : Memory} (h : m.wf) (a : Byte) : m.write a (m.read a) = m := by
  refine Memory.ext_read (Memory.write_wf m a _ h) h fun b => ?_
  rw [Memory.read_write m a b _ h]
  split
  · next hb => rw [hb]
  · rfl

theorem State.memWrite_memWrite {s : State} (h : s.mem.wf) (a v w : Byte) :
    (s.memWrite a v).memWrite a w = s.memWrite a w :=
  congrArg (fun m => { s with mem := m }) (Memory.write_write h a v w)

theorem State.memWrite_memRead {s : State} (h : s.mem.wf) (a : Byte) : s.memWrite a (s.memRead a) = s :=
  congrArg (fun m => { s with mem := m }) (Memory.write_read h a)

theorem State.memRead_memWrite_self (s : State) (a v : Byte) (h : s.mem.wf) : (s.memWrite a v).memRead a = v := by
  simp [State.memRead_memWrite s a a v h]

/-- A read depends on memory alone. -/
theorem State.memRead_of_mem_eq {s t : State} (h : s.mem = t.mem) (a : Byte) : s.memRead a = t.memRead a :=
  congrArg (fun m => m.read a) h

/-! ### What a push leaves in memory (R120) -/

theorem memRead_of_exec_push {s t : State} {r : RegIdx} (hwf : s.mem.wf) (h : exec (.push (regByte r)) s = .next t) :
    t.memRead (s.sp - 1#8) = s.decSp.getReg r := by
  cases (exec_push_regByte s r).symm.trans h
  exact State.memRead_memWrite_self s.decSp _ _ hwf

theorem memRead_of_exec_call {s t : State} {r : RegIdx} (hwf : s.mem.wf) (h : exec (.call (regByte r)) s = .next t) :
    t.memRead (s.sp - 1#8) = s.pc + 2#8 := by
  cases (exec_call_regByte s r).symm.trans h
  exact State.memRead_memWrite_self s.decSp _ _ hwf

/-- All an instruction can do to memory: nothing, or a PUSH or CALL of a register writes the byte below SP (R44). -/
theorem exec_mem_cases {i : Instr} {s t : State} (h : exec i s = .next t) :
    t.mem = s.mem ∨
    ∃ r v, (i = .push (regByte r) ∨ i = .call (regByte r)) ∧ t.mem = s.mem.write (s.sp - 1#8) v := by
  rcases exec_cases i s with ⟨_, -, -, -, he⟩ | ⟨-, he⟩ | ⟨-, he⟩ | ⟨r, hpush, he⟩ | ⟨_, -, he⟩ | ⟨_, -, he⟩ |
    ⟨r, hcall, he⟩ | ⟨_, _, -, he⟩ | ⟨_, _, -, he⟩ | ⟨_, _, -, he⟩ <;> cases he.symm.trans h
  pick_goal 4
  · exact .inr ⟨r, _, .inl hpush, rfl⟩
  pick_goal 6
  · exact .inr ⟨r, _, .inr hcall, rfl⟩
  all_goals exact .inl rfl

/-- All a step can do to memory: a rejected byte only halts, and a decoded instruction is `exec_mem_cases`. -/
theorem engineStep_mem_cases {m : OpcodeMap} {s t : State} (h : engineStep m s = .next t) :
    t.mem = s.mem ∨
    ∃ r v, (fetchDecode m s = .instr (.push (regByte r)) ∨ fetchDecode m s = .instr (.call (regByte r))) ∧
      t.mem = s.mem.write (s.sp - 1#8) v := by
  have hrun := running_of_engineStep_next h
  cases hd : fetchDecode m s with
  | reject e =>
    cases (engineStep_of_reject hrun hd).symm.trans h
    exact .inl rfl
  | instr i =>
    simp only [Decoded.instr.injEq]
    exact exec_mem_cases ((engineStep_of_instr hrun hd).symm.trans h)

/-! ### Where a fetch takes its operands from (R81 to R83) -/

theorem fetch_ir (s : State) : (fetch s).ir = s.memRead s.pc := rfl

theorem fetch_a_of_count {s : State} (h : 1 ≤ operandCount (fetch s).ir) : (fetch s).a = s.memRead (s.pc + 1#8) :=
  if_pos h

theorem fetch_b_of_count {s : State} (h : operandCount (fetch s).ir = 2) : (fetch s).b = s.memRead (s.pc + 2#8) :=
  if_pos h

end Sys2Proof.Machine
end

section
/-! The obligations of 20_memory.md. -/
namespace Sys2Proof.Machine

/-- Settles O18: a step that writes memory is a PUSH or CALL, and a write leaves every cell but its own. -/
theorem onlyPushAndCallWriteMemory : Obligations.OnlyPushAndCallWriteMemory := by
  intro m s t a h ha
  rcases engineStep_mem_cases h with hmem | ⟨r, v, hd, hmem⟩
  · exact absurd (State.memRead_of_mem_eq hmem a) ha
  · refine ⟨by_contra fun hne => ha ?_, r, hd⟩
    rw [State.memRead_eq, hmem, Memory.read_write_ne s.mem _ a v hne, State.memRead_eq]

/-- Settles O34: the later memory reads as the stored byte at the stored address, and each fetched byte is a read. -/
theorem fetchSeesStoredBytes : Obligations.FetchSeesStoredBytes := by
  intro s t u r v hwf hstore hmem
  have hstored : t.memRead (s.sp - 1#8) = v := by
    rcases hstore with ⟨hpush, rfl⟩ | ⟨hcall, rfl⟩
    · exact memRead_of_exec_push hwf hpush
    · exact memRead_of_exec_call hwf hcall
  have hread : u.memRead (s.sp - 1#8) = v := (State.memRead_of_mem_eq hmem _).trans hstored
  refine ⟨fun hpc => ?_, fun hpc hcount => ?_, fun hpc hcount => ?_⟩
  · rw [fetch_ir, hpc, hread]
  · rw [fetch_a_of_count hcount, hpc, hread]
  · rw [fetch_b_of_count hcount, hpc, hread]

/-- Settles O36, both halves from the extensionality of canonical memories. -/
theorem memoryAccessIsIdempotent : Obligations.MemoryAccessIsIdempotent := fun _ a v hwf =>
  ⟨State.memWrite_memWrite hwf a v v, State.memWrite_memRead hwf a⟩

/-- Settles O37: `Memory.ext_read`. -/
theorem equalReadsAreEqualMemories : Obligations.EqualReadsAreEqualMemories := fun _ _ hm hn h =>
  Memory.ext_read hm hn h

/-- Settles O35, from the rules for a read after a write. -/
theorem writeSetsItsCellOnly : Obligations.WriteSetsItsCellOnly := fun s a v hwf =>
  ⟨State.memRead_memWrite_self s a v hwf, fun b hb => State.memRead_memWrite_ne s a b v hb, rfl,
    State.memWrite_wf s a v hwf⟩

end Sys2Proof.Machine
end

section
/-! SUPPORT. Rules the obligations of 30_encoding.md need: which bytes a map recognises, how the operand bytes of an
instruction and `takeOperands` undo each other, when `decode` gives an instruction, and the step on a byte that is no
opcode. -/
namespace Sys2Proof

/-! ### Which bytes a map recognises (R62, R66, R67) -/

/-- A legal map recognises exactly the pairs of its own table. -/
theorem OpcodeMap.Legal.lookup_eq_some_iff_mem {m : OpcodeMap} (h : m.Legal) {ir : Byte} {op : Opcode} :
    m.lookup ir = some op ↔ (ir, op) ∈ Opcode.all.map fun o => (m.byteOf o, o) := by
  have hbyte : m.lookup ir = some op ↔ m.byteOf op = ir :=
    ⟨OpcodeMap.byteOf_of_lookup, fun e => e ▸ h.lookup_byteOf op⟩
  simp [hbyte, Opcode.mem_all]

theorem OpcodeMap.lookup_eq_none_iff_notMem {m : OpcodeMap} {ir : Byte} :
    m.lookup ir = none ↔ ir ∉ Opcode.all.map m.byteOf := by
  simp [OpcodeMap.lookup_eq_none, Opcode.mem_all]

theorem defaultOpcodeMap_legal : defaultOpcodeMap.Legal := by decide

/-- The bytes of the default map are the nine of R66, so every other byte is invalid. -/
theorem lookup_defaultOpcodeMap_eq_none_iff {ir : Byte} : defaultOpcodeMap.lookup ir = none ↔
    ir ∉ [0x01#8, 0x11#8, 0x45#8, 0x46#8, 0x47#8, 0x50#8, 0x82#8, 0xA0#8, 0xA2#8] :=
  OpcodeMap.lookup_eq_none_iff_notMem

set_option maxRecDepth 2000 in
/-- Of the 64 bytes with each count the default map makes 2, 4, 3 and 0 opcodes; the rest are invalid (R67). One evaluation
over the 256 bytes, which is deeper than the default recursion limit. -/
theorem countP_invalid_of_count : ∀ p ∈ [(0, 62), (1, 60), (2, 61), (3, 64)],
    ((List.range 256).countP fun k =>
      operandCount (BitVec.ofNat 8 k) = p.1 ∧ defaultOpcodeMap.lookup (BitVec.ofNat 8 k) = none) = p.2 := by
  decide

set_option maxRecDepth 2000 in
theorem countP_invalid :
    ((List.range 256).countP fun k => defaultOpcodeMap.lookup (BitVec.ofNat 8 k) = none) = 247 := by
  decide

/-! ### The operand count (R61, R63) -/

theorem operandCount_eq_div (ir : Byte) : operandCount ir = ir.toNat / 64 := by
  simp [operandCount, Nat.shiftRight_eq_div_pow]

theorem Opcode.count_le_two (op : Opcode) : op.count ≤ 2 := by
  cases op <;> decide

/-- Every opcode's count is at most 2, so a byte with count 3 is no opcode of a legal map. -/
theorem OpcodeMap.Legal.lookup_of_count_three {m : OpcodeMap} (h : m.Legal) {ir : Byte} (h3 : operandCount ir = 3) :
    m.lookup ir = none := by
  refine OpcodeMap.lookup_eq_none.mpr fun op e => ?_
  have hcount : op.count = 3 := by rw [← h.operandCount_byteOf, e, h3]
  have hle := op.count_le_two
  omega

/-! ### Operand bytes and `takeOperands` undo each other (R63, R65) -/

/-- An assembled instruction has as many of the two operand bytes as its opcode's count. -/
theorem Opcode.assemble_operands (op : Opcode) (a b : Byte) : (op.assemble a b).operands = [a, b].take op.count := by
  cases op <;> rfl

theorem encode_assemble (m : OpcodeMap) (op : Opcode) (a b : Byte) :
    encode m (op.assemble a b) = m.byteOf op :: [a, b].take op.count := by
  rw [encode, Opcode.assemble_opcode, Opcode.assemble_operands]

/-- The operands of an instruction are taken whole, and the bytes after them are left. -/
theorem takeOperands_operands (i : Instr) (rest : List Byte) :
    takeOperands i.opcode.count (i.operands ++ rest) = some (i.operands.getD 0 0#8, i.operands.getD 1 0#8, rest) := by
  cases i <;> rfl

/-- What was taken, as many bytes as asked for, and what is left make up the bytes. -/
theorem eq_append_of_takeOperands {n : Nat} {bs rest : List Byte} {a b : Byte}
    (h : takeOperands n bs = some (a, b, rest)) : bs = [a, b].take n ++ rest := by
  revert h
  fun_cases takeOperands n bs with
  | case1 | case2 | case3 => rintro ⟨⟩; rfl
  | case4 => rintro ⟨⟩

/-! ### When `decode` gives an instruction -/

/-- Under a legal map bytes decode to an instruction exactly when they are an opcode's byte and the operands of its count,
from which the instruction is assembled. -/
theorem decode_eq_instr_iff {m : OpcodeMap} (h : m.Legal) {bytes rest : List Byte} {i : Instr} :
    decode m bytes = (.instr i, rest) ↔ ∃ op bs a b, bytes = m.byteOf op :: bs ∧
      takeOperands op.count bs = some (a, b, rest) ∧ i = op.assemble a b := by
  constructor
  · intro hd
    cases bytes with
    | nil => simp [decode] at hd
    | cons ir bs =>
      cases hl : m.lookup ir with
      | none => simp [decode, hl] at hd
      | some op =>
        obtain rfl := OpcodeMap.byteOf_of_lookup hl
        cases ht : takeOperands op.count bs with
        | none => simp [decode_byteOf_missing h ht] at hd
        | some taken =>
          rw [decode_byteOf h ht] at hd
          cases hd
          exact ⟨op, bs, _, _, rfl, ht, rfl⟩
  · rintro ⟨op, bs, a, b, rfl, ht, rfl⟩
    exact decode_byteOf h ht

end Sys2Proof

namespace Sys2Proof.Machine

/-- A Running step on a byte that is no opcode is the InvalidOpcode halt (R84, R141). -/
theorem engineStep_of_lookup_none {m : OpcodeMap} {s : State} (hrun : s.run = .running)
    (h : m.lookup (s.memRead s.pc) = none) : engineStep m s = .next (invalidOpcodeState s (s.memRead s.pc)) := by
  have hreject : fetchDecode m s = .reject (.invalidOpcode (s.memRead s.pc)) := by
    simp [fetchDecode, decodeParts, fetch_ir, h]
  exact engineStep_of_reject hrun hreject

end Sys2Proof.Machine
end

section
/-! The obligations of 30_encoding.md. -/
namespace Sys2Proof.Machine

/-- Settles O4: the opcode's byte is found, its count takes the operands whole, and they assemble to the instruction. -/
theorem decodeOfEncodeIsTheInstruction : Obligations.DecodeOfEncodeIsTheInstruction := fun _ hm i rest =>
  (decode_eq_instr_iff hm).mpr ⟨i.opcode, i.operands ++ rest, _, _, rfl, takeOperands_operands i rest,
    i.assemble_operands.symm⟩

/-- Settles O3: the nine bytes are all the default map lists, and the counts are those of the 256 bytes. -/
theorem everyOtherByteIsInvalid : Obligations.EveryOtherByteIsInvalid := by
  refine ⟨fun ir hir => ?invalid, fun c n h => countP_invalid_of_count (c, n) h, countP_invalid,
    List.forall_iff_forall_mem.mp (by decide)⟩
  case invalid =>
    have hnone : defaultOpcodeMap.lookup ir = none := lookup_defaultOpcodeMap_eq_none_iff.mpr hir
    refine ⟨hnone, fun s hrun hpc => ?_⟩
    subst hpc
    exact engineStep_of_lookup_none hrun hnone

/-- Settles O5: what `decode` took apart is the encoding of what it assembled. -/
theorem decodedBytesAreTheEncoding : Obligations.DecodedBytesAreTheEncoding := by
  intro m hm bytes rest i h
  obtain ⟨op, bs, a, b, rfl, ht, rfl⟩ := (decode_eq_instr_iff hm).mp h
  rw [encode_assemble, eq_append_of_takeOperands ht, List.cons_append]

/-- Settles O6: a legal map's bytes carry the count of their opcodes, which is never 3. -/
theorem lengthFromTopTwoBits : Obligations.LengthFromTopTwoBits := by
  refine ⟨operandCount_eq_div, fun m hm => ⟨fun i => ⟨?length, rfl⟩, fun ir h3 => hm.lookup_of_count_three h3,
    fun s hrun h3 => ?halt⟩⟩
  case length => rw [Laws.EncodedLength.of_operands i m, hm.operandCount_byteOf]
  case halt => exact ⟨_, engineStep_of_lookup_none hrun (hm.lookup_of_count_three h3), rfl⟩

/-- Settles O2: the table is the default map's own, and each opcode has the row of its format. -/
theorem decoderRecognisesExactlyNineBytes : Obligations.DecoderRecognisesExactlyNineBytes := by
  refine ⟨fun _ _ => defaultOpcodeMap_legal.lookup_eq_some_iff_mem, fun op a b h => ?n, fun op a b h => ?r,
    fun op a b h => ?rr, fun _ _ => ⟨rfl, rfl, rfl, rfl⟩, defaultOpcodeMap_legal⟩
  case n => fin_cases h <;> exact ⟨rfl, rfl, rfl⟩
  case r => fin_cases h <;> exact ⟨rfl, rfl, rfl, rfl⟩
  case rr => fin_cases h <;> exact ⟨rfl, rfl, rfl, rfl⟩

end Sys2Proof.Machine
end

section
/-! SUPPORT. Rules the obligations of 40_engine_cycle.md need: byte addresses that wrap, what a fetch finds of an encoding in
memory, well-formed and ill-formed instructions, the frame of an instruction (`pc`, registers, engine status), and what two
runs that agree on what they read have in common afterwards. -/
namespace Sys2Proof

/-! ### Well-formed instructions: no register operand is 8 or more (R64, R85) -/

theorem validRegByte_iff_lt {b : Byte} : validRegByte b = true ↔ b.toNat < 8 := decide_eq_true_iff

theorem Instr.regOperand_lt_of_wellFormed {i : Instr} (h : i.wellFormed = true) {r : Byte} (hr : r ∈ i.regOperands) :
    r.toNat < 8 :=
  validRegByte_iff_lt.mp (List.all_eq_true.mp h r hr)

/-- The invalid operand that `exec_cases` would report is excluded. -/
theorem Instr.no_invalid_of_wellFormed {i : Instr} (h : i.wellFormed = true) {P : Byte → Prop} :
    ¬ ∃ r ∈ i.regOperands, 8 ≤ r.toNat ∧ P r := by
  rintro ⟨r, hr, h8, -⟩
  exact absurd (Instr.regOperand_lt_of_wellFormed h hr) (Nat.not_lt.mpr h8)

/-- An ill-formed instruction has a first register operand that is 8 or more. -/
theorem Instr.find?_invalid_of_not_wellFormed {i : Instr} (h : i.wellFormed = false) :
    ∃ b, i.regOperands.find? (fun r => !validRegByte r) = some b := by
  rw [← Option.isSome_iff_exists, List.find?_isSome]
  simpa [Instr.wellFormed] using h

/-- With a format that has a register operand, operand A is the first one checked (R85). -/
theorem Opcode.find?_invalid_of_a {op : Opcode} {a b : Byte} (hop : op.format ≠ .n) (ha : 8 ≤ a.toNat) :
    (op.regOperands a b).find? (fun r => !validRegByte r) = some a := by
  have ha' := Machine.validRegByte_of_ge ha
  cases hf : op.format with
  | n => exact absurd hf hop
  | r | rr | ri => simp [Opcode.regOperands, hf, ha']

/-- With two register operands, operand B is checked once operand A is valid (R85). -/
theorem Opcode.find?_invalid_of_b {op : Opcode} {a b : Byte} (hop : op.format = .rr) (ha : a.toNat < 8)
    (hb : 8 ≤ b.toNat) : (op.regOperands a b).find? (fun r => !validRegByte r) = some b := by
  simp [Opcode.regOperands, hop, validRegByte_iff_lt.mpr ha, Machine.validRegByte_of_ge hb]

end Sys2Proof

namespace Sys2Proof.Machine

/-! ### Byte addresses wrap (R41, R83, R87) -/

/-- The address `k` past a byte address, mod 256, is the sum of bit vectors. -/
theorem ofNat_toNat_add_mod (a : Byte) (k : Nat) : BitVec.ofNat 8 ((a.toNat + k) % 256) = a + BitVec.ofNat 8 k :=
  BitVec.eq_of_toNat_eq (by simp)

/-! ### What a fetch and a decode find -/

theorem fetch_a_of_count_zero {s : State} (h : operandCount (fetch s).ir = 0) : (fetch s).a = 0#8 :=
  if_neg (by rw [← fetch_ir, h]; decide)

theorem fetch_b_of_count_ne {s : State} (h : operandCount (fetch s).ir ≠ 2) : (fetch s).b = 0#8 := if_neg h

/-- With an instruction's count in the instruction byte and its operands at the addresses after it, the fetched operands are
the instruction's, 0 standing for one it does not have (R81 to R83). -/
theorem fetch_operands {s : State} {i : Instr} (hcount : operandCount (fetch s).ir = i.operands.length)
    (hmem : ∀ (k : Nat) (v : Byte), i.operands[k]? = some v → s.memRead (s.pc + BitVec.ofNat 8 (k + 1)) = v) :
    (fetch s).a = i.operands.getD 0 0#8 ∧ (fetch s).b = i.operands.getD 1 0#8 := by
  have hle : i.operands.length ≤ 2 := i.operands_length ▸ i.opcode.count_le_two
  match hops : i.operands with
  | [] =>
    rw [hops] at hcount
    exact ⟨fetch_a_of_count_zero hcount, fetch_b_of_count_ne (by simp [hcount])⟩
  | [a] =>
    rw [hops] at hcount hmem
    exact ⟨(fetch_a_of_count hcount.ge).trans (hmem 0 a rfl), fetch_b_of_count_ne (by simp [hcount])⟩
  | [a, b] =>
    rw [hops] at hcount hmem
    exact ⟨(fetch_a_of_count (by simp [hcount])).trans (hmem 0 a rfl), (fetch_b_of_count hcount).trans (hmem 1 b rfl)⟩
  | _ :: _ :: _ :: _ => simp [hops] at hle

/-- Fetch and decode undo an encoding that lies in memory from `pc` on (R71, R81 to R84). -/
theorem fetchDecode_of_encode {m : OpcodeMap} (hm : m.Legal) {s : State} {i : Instr}
    (h : ∀ (k : Nat) (v : Byte), (encode m i)[k]? = some v → s.memRead (s.pc + BitVec.ofNat 8 k) = v) :
    fetchDecode m s = .instr i := by
  have hir : (fetch s).ir = m.byteOf i.opcode := by simpa [fetch_ir] using h 0 _ rfl
  have hcount : operandCount (fetch s).ir = i.operands.length := by
    rw [hir, hm.operandCount_byteOf, i.operands_length]
  obtain ⟨ha, hb⟩ := fetch_operands hcount fun k v hk => h (k + 1) v hk
  rw [fetchDecode, decodeParts, hir, hm.lookup_byteOf, ha, hb]
  exact congrArg Decoded.instr i.assemble_operands

/-- A Running step on an opcode's byte runs the instruction assembled of the fetched operands (R86). -/
theorem engineStep_of_lookup_some {m : OpcodeMap} {s : State} {op : Opcode} (hrun : s.run = .running)
    (h : m.lookup (fetch s).ir = some op) : engineStep m s = exec (op.assemble (fetch s).a (fetch s).b) s :=
  engineStep_of_instr hrun (by rw [fetchDecode, decodeParts, h])

/-- A Running step whose first register operand of 8 or more is `b` is the InvalidRegister halt on it (R85, R142). -/
theorem engineStep_of_invalid {m : OpcodeMap} {s : State} {op : Opcode} {b : Byte} (hrun : s.run = .running)
    (h : m.lookup (fetch s).ir = some op)
    (hb : (op.regOperands (fetch s).a (fetch s).b).find? (fun r => !validRegByte r) = some b) :
    engineStep m s = .next (invalidRegisterState s b) := by
  rw [engineStep_of_lookup_some hrun h]
  exact exec_of_invalid _ s (by rwa [Opcode.assemble_regOperands])

/-! ### A step exists (R80) -/

/-- Every instruction has a next state: the model raises no fault and refuses none. -/
theorem exec_exists_next (i : Instr) (s : State) : ∃ t, exec i s = .next t := by
  obtain ⟨t, ht, -⟩ := exec_ignores_loadCount i s s.loadCount
  exact ⟨t, ht⟩

theorem engineStep_exists_next {m : OpcodeMap} {s : State} (hrun : s.run = .running) : ∃ t, engineStep m s = .next t := by
  cases hd : fetchDecode m s with
  | reject e => exact ⟨_, engineStep_of_reject hrun hd⟩
  | instr i => simpa only [engineStep_of_instr hrun hd] using exec_exists_next i s

@[simp] theorem loadPort_run (p : InputPorts) (s : State) : (loadPort p s).run = s.run := by
  cases h : p.loadWe <;> simp [loadPort, h]

/-- Sampling `rst = 1` leaves the block held in reset (R160). -/
theorem sampleInputs_run_of_rst {p : InputPorts} (hp : p.rst = true) (s : State) :
    (sampleInputs p s).run = .heldInReset := by
  by_cases hs : s.run = .heldInReset
  · rw [sampleInputs_load hp hs, loadPort_run, hs]
  · rw [sampleInputs_reset hp hs, loadPort_run, heldState]

/-! ### The frame of an instruction -/

/-- An ill-formed instruction is the InvalidRegister halt, on the same operand byte from every state (R85). -/
theorem exec_of_not_wellFormed {i : Instr} (h : i.wellFormed = false) :
    ∃ b, ∀ s, exec i s = .next (s.raiseHalt .invalidRegister b) := by
  obtain ⟨b, hb⟩ := Instr.find?_invalid_of_not_wellFormed h
  exact ⟨b, fun s => exec_of_invalid i s hb⟩

/-- A well-formed instruction other than CALL and RET advances `pc` by its length (R87). -/
theorem exec_pc_of_wellFormed {i : Instr} {s t : State} (hwf : i.wellFormed = true) (hcall : i.opcode ≠ .call)
    (hret : i.opcode ≠ .ret) (h : exec i s = .next t) : t.pc = s.pc + BitVec.ofNat 8 i.opcode.count + 1#8 := by
  rcases (exec_cases i s).resolve_left (Instr.no_invalid_of_wellFormed hwf) with ⟨rfl, he⟩ | ⟨rfl, -⟩ | ⟨_, rfl, he⟩ |
    ⟨_, rfl, he⟩ | ⟨_, rfl, he⟩ | ⟨_, rfl, -⟩ | ⟨_, _, rfl, he⟩ | ⟨_, _, rfl, he⟩ | ⟨_, _, rfl, he⟩
  pick_goal 2
  · exact absurd rfl hret
  pick_goal 5
  · exact absurd rfl hcall
  all_goals
    cases he.symm.trans h
    rfl

/-- A well-formed instruction other than HLT leaves the engine status as it is (R140). -/
theorem exec_statusSame {i : Instr} {s t : State} (hwf : i.wellFormed = true) (hhlt : i ≠ .hlt)
    (h : exec i s = .next t) : StatusSame s t := by
  rcases ((exec_cases i s).resolve_left (Instr.no_invalid_of_wellFormed hwf)).resolve_left (fun hi => hhlt hi.1) with
    ⟨-, he⟩ | ⟨_, -, he⟩ | ⟨_, -, he⟩ | ⟨_, -, he⟩ | ⟨_, -, he⟩ | ⟨_, _, -, he⟩ | ⟨_, _, -, he⟩ | ⟨_, _, -, he⟩
  all_goals
    cases he.symm.trans h
    exact ⟨rfl, rfl, rfl, rfl, rfl⟩

/-- An instruction writes no register but those the table of R21 names (R90). -/
theorem exec_regsSameBut {i : Instr} {s t : State} (h : exec i s = .next t) :
    RegsSameBut (Instr.regWrites i) s t := by
  intro q hq
  rcases exec_cases i s with ⟨_, -, -, -, he⟩ | ⟨rfl, he⟩ | ⟨rfl, he⟩ | ⟨_, rfl, he⟩ | ⟨_, rfl, he⟩ | ⟨_, rfl, he⟩ |
    ⟨_, rfl, he⟩ | ⟨_, _, rfl, he⟩ | ⟨_, _, rfl, he⟩ | ⟨_, _, rfl, he⟩ <;> cases he.symm.trans h
  case inl => rfl
  all_goals
    simp only [Instr.regWrites, regOperand_regByte, Option.toList_some, List.mem_append, List.mem_singleton, not_or] at hq
    simp [State.getReg_setReg, State.getReg_decSp, State.getReg_incSp, hq]

/-! ### The registers a step reads and writes (R21) -/

theorem readsAt_of_instr {m : OpcodeMap} {s : State} {i : Instr} (h : fetchDecode m s = .instr i) :
    readsAt m s = Instr.regReads i := by
  rw [readsAt, h]

theorem writesAt_of_instr {m : OpcodeMap} {s : State} {i : Instr} (h : fetchDecode m s = .instr i) :
    writesAt m s = Instr.regWrites i := by
  rw [writesAt, h]

theorem writesAt_of_reject {m : OpcodeMap} {s : State} {e : DecodeReject} (h : fetchDecode m s = .reject e) :
    writesAt m s = [] := by
  rw [writesAt, h]

/-- A step writes no register but those its instruction names (R90). -/
theorem engineStep_regsSameBut {m : OpcodeMap} {s t : State} (h : engineStep m s = .next t) :
    RegsSameBut (writesAt m s) s t := by
  have hrun := running_of_engineStep_next h
  cases hd : fetchDecode m s with
  | reject e =>
    cases (engineStep_of_reject hrun hd).symm.trans h
    exact fun _ _ => rfl
  | instr i =>
    rw [writesAt_of_instr hd]
    exact exec_regsSameBut ((engineStep_of_instr hrun hd).symm.trans h)

/-- The register an operand byte names is the one whose byte it is (R64). -/
theorem mem_regOperand_toList {b : Byte} {r : RegIdx} : r ∈ (regOperand b).toList ↔ b = regByte r := by
  rcases regOperand_cases b with ⟨h8, hb⟩ | ⟨q, rfl, hb⟩
  · have hne : b ≠ regByte r := by
      rintro rfl
      rw [regByte_toNat] at h8
      exact absurd r.isLt (Nat.not_lt.mpr h8)
    simp [hb, hne]
  · simpa [hb] using ⟨fun e => e ▸ rfl, fun e => (regByte_injective e).symm⟩

/-- A register an instruction writes is named by one of its register operands, or is SP. -/
theorem Instr.regByte_mem_of_mem_regWrites {i : Instr} {r : RegIdx} (h : r ∈ Instr.regWrites i) :
    regByte r ∈ i.regOperands ∨ r = Config.spIndex := by
  cases i with
  | hlt | prn => cases h
  | ret | push | call => exact .inr (List.mem_singleton.mp h)
  | ldi a | add a | mul a => exact .inl (by simp [Instr.regOperands, mem_regOperand_toList.mp h])
  | pop a =>
    rcases List.mem_append.mp h with ha | hsp
    · exact .inl (by simp [Instr.regOperands, mem_regOperand_toList.mp ha])
    · exact .inr (List.mem_singleton.mp hsp)

/-- An operand byte that names no register contributes none. -/
theorem regOperand_of_invalid {b : Byte} (h : validRegByte b = false) : regOperand b = none := by
  rcases regOperand_cases b with ⟨-, hb⟩ | ⟨r, rfl, -⟩
  · exact hb
  · rw [validRegByte_regByte] at h
    cases h

/-- The registers the table has an ill-formed instruction write, it also has it read: LDI and POP write none but SP then. -/
theorem Instr.regWrites_subset_regReads {i : Instr} (h : i.wellFormed = false) :
    Instr.regWrites i ⊆ Instr.regReads i := by
  cases i with
  | hlt | ret => cases h
  | prn a => exact List.nil_subset _
  | push a | call a => simp [Instr.regWrites, Instr.regReads]
  | add a b | mul a b => exact List.subset_append_left _ _
  | ldi a v | pop a =>
    have ha : validRegByte a = false := by simpa [Instr.wellFormed, Instr.regOperands] using h
    simp [Instr.regWrites, Instr.regReads, regOperand_of_invalid ha]

/-! ### Two states that agree on `pc`, memory, `run` and some registers (R91)

One rule per state operation; an instruction's rule is their composition. -/

/-- The states agree on all a step may read when its instruction reads the registers `rs`. -/
structure AgreeOn (rs : List RegIdx) (s t : State) : Prop where
  pc : t.pc = s.pc
  mem : t.mem = s.mem
  run : t.run = s.run
  reg : ∀ r ∈ rs, t.getReg r = s.getReg r

section
variable {rs qs : List RegIdx} {s t : State}

theorem AgreeOn.mono (h : AgreeOn rs s t) (hqs : qs ⊆ rs) : AgreeOn qs s t :=
  { h with reg := fun r hr => h.reg r (hqs hr) }

theorem AgreeOn.memRead (h : AgreeOn rs s t) (a : Byte) : t.memRead a = s.memRead a := State.memRead_of_mem_eq h.mem a

theorem AgreeOn.sp (h : AgreeOn rs s t) (hsp : Config.spIndex ∈ rs) : t.sp = s.sp := h.reg _ hsp

/-- The byte a pop takes. -/
theorem AgreeOn.memRead_sp (h : AgreeOn rs s t) (hsp : Config.spIndex ∈ rs) : t.memRead t.sp = s.memRead s.sp := by
  rw [h.sp hsp, h.memRead]

theorem AgreeOn.fetch_eq (h : AgreeOn rs s t) : fetch t = fetch s := by
  simp only [fetch, h.pc, h.memRead]

theorem AgreeOn.fetchDecode_eq (h : AgreeOn rs s t) (m : OpcodeMap) : fetchDecode m t = fetchDecode m s := by
  simp only [fetchDecode, h.fetch_eq]

/-- Writing one value to a register adds it to those the states agree on. -/
theorem AgreeOn.setReg (h : AgreeOn rs s t) (r : RegIdx) {v w : Byte} (hv : w = v) :
    AgreeOn (r :: rs) (s.setReg r v) (t.setReg r w) where
  pc := h.pc
  mem := h.mem
  run := h.run
  reg q hq := by
    rw [State.getReg_setReg, State.getReg_setReg, hv]
    split
    · rfl
    · next hne => exact h.reg q ((List.mem_cons.mp hq).resolve_left hne)

theorem AgreeOn.decSp (h : AgreeOn rs s t) (hsp : Config.spIndex ∈ rs) :
    AgreeOn (Config.spIndex :: rs) s.decSp t.decSp :=
  h.setReg Config.spIndex (by rw [h.sp hsp])

theorem AgreeOn.incSp (h : AgreeOn rs s t) (hsp : Config.spIndex ∈ rs) :
    AgreeOn (Config.spIndex :: rs) s.incSp t.incSp :=
  h.setReg Config.spIndex (by rw [h.sp hsp])

theorem AgreeOn.memWrite (h : AgreeOn rs s t) {a b v w : Byte} (ha : b = a) (hv : w = v) :
    AgreeOn rs (s.memWrite a v) (t.memWrite b w) :=
  { h with mem := by rw [State.memWrite_mem, State.memWrite_mem, h.mem, ha, hv] }

/-- A push of one value (R120). -/
theorem AgreeOn.push (h : AgreeOn rs s t) (hsp : Config.spIndex ∈ rs) {v w : Byte} (hv : w = v) :
    AgreeOn (Config.spIndex :: rs) (s.decSp.memWrite (s.sp - 1#8) v) (t.decSp.memWrite (t.sp - 1#8) w) :=
  (h.decSp hsp).memWrite (by rw [h.sp hsp]) hv

theorem AgreeOn.setPc (h : AgreeOn rs s t) {v w : Byte} (hv : w = v) : AgreeOn rs (s.setPc v) (t.setPc w) :=
  { h with pc := hv }

theorem AgreeOn.advance (h : AgreeOn rs s t) (op : Opcode) : AgreeOn rs (s.advance op) (t.advance op) :=
  h.setPc (by rw [h.pc])

theorem AgreeOn.emit (h : AgreeOn rs s t) (v w : Byte) : AgreeOn rs (s.emit v) (t.emit w) := { h with }

theorem AgreeOn.halt (h : AgreeOn rs s t) (reason : HaltReason) : AgreeOn rs (s.halt reason) (t.halt reason) :=
  { h with run := rfl }

theorem AgreeOn.raiseHalt (h : AgreeOn rs s t) (reason : HaltReason) (b : Byte) :
    AgreeOn rs (s.raiseHalt reason b) (t.raiseHalt reason b) :=
  { h with run := rfl }

end

/-- Two runs of an instruction that agree on what it reads agree afterwards on what it writes. -/
theorem exec_agreeOn {i : Instr} {s t : State} (h : AgreeOn (Instr.regReads i) s t) :
    ∃ s' t', exec i s = .next s' ∧ exec i t = .next t' ∧ AgreeOn (Instr.regWrites i) s' t' := by
  cases hwf : i.wellFormed with
  | false =>
    obtain ⟨b, hb⟩ := exec_of_not_wellFormed hwf
    exact ⟨_, _, hb s, hb t, (h.raiseHalt _ b).mono (Instr.regWrites_subset_regReads hwf)⟩
  | true =>
    rcases (exec_cases i s).resolve_left (Instr.no_invalid_of_wellFormed hwf) with ⟨rfl, -⟩ | ⟨rfl, -⟩ | ⟨r, rfl, -⟩ |
      ⟨r, rfl, -⟩ | ⟨r, rfl, -⟩ | ⟨r, rfl, -⟩ | ⟨r, v, rfl, -⟩ | ⟨r, q, rfl, -⟩ | ⟨r, q, rfl, -⟩ <;>
      simp only [Instr.regReads, Instr.regWrites, regOperand_regByte, Option.toList_some, List.cons_append,
        List.nil_append] at h ⊢
    · exact ⟨_, _, exec_hlt s, exec_hlt t, (h.halt .hlt).advance .hlt⟩
    · have hret := (h.setPc (h.memRead_sp (by simp))).incSp (by simp)
      exact ⟨_, _, exec_ret s, exec_ret t, hret.mono (by simp)⟩
    · have hdec := h.decSp (by simp)
      have hpush := (h.push (by simp) (hdec.reg r (by simp))).advance .push
      exact ⟨_, _, exec_push_regByte s r, exec_push_regByte t r, hpush.mono (by simp)⟩
    · have hpop := ((h.setReg r (h.memRead_sp (by simp))).incSp (by simp)).advance .pop
      exact ⟨_, _, exec_pop_regByte s r, exec_pop_regByte t r, hpop.mono (by simp)⟩
    · have hprn := (h.emit (s.getReg r) (t.getReg r)).advance .prn
      exact ⟨_, _, exec_prn_regByte s r, exec_prn_regByte t r, hprn.mono (by simp)⟩
    · have hdec := h.decSp (by simp)
      have hcall := (h.push (by simp) (congrArg (· + 2#8) h.pc)).setPc (hdec.reg r (by simp))
      exact ⟨_, _, exec_call_regByte s r, exec_call_regByte t r, hcall.mono (by simp)⟩
    · exact ⟨_, _, exec_ldi_regByte s r v, exec_ldi_regByte t r v, (h.setReg r rfl).advance .ldi⟩
    · have hadd := (h.setReg r (congrArg₂ (· + ·) (h.reg r (by simp)) (h.reg q (by simp)))).advance .add
      exact ⟨_, _, exec_add_regByte s r q, exec_add_regByte t r q, hadd.mono (by simp)⟩
    · have hmul := (h.setReg r (congrArg₂ (· * ·) (h.reg r (by simp)) (h.reg q (by simp)))).advance .mul
      exact ⟨_, _, exec_mul_regByte s r q, exec_mul_regByte t r q, hmul.mono (by simp)⟩

/-- From `s` to `s'` and from `t` to `t'` the same bytes are emitted. -/
abbrev EmitAlike (s t s' t' : State) : Prop := ∃ e, s'.out = s.out ++ e ∧ t'.out = t.out ++ e

/-- The engine status is left in both runs, or what is written of it is written alike. -/
abbrev StatusAlike (s t s' t' : State) : Prop :=
  (StatusSame s s' ∧ StatusSame t t') ∨
  (t'.haltReason = .hlt ∧ s'.haltReason = .hlt ∧ DiagSame s s' ∧ DiagSame t t') ∨
  (t'.haltReason = s'.haltReason ∧ t'.errPc = s'.errPc ∧ t'.errByte = s'.errByte)

theorem exec_emitAlike {i : Instr} {s t s' t' : State} (h : AgreeOn (Instr.regReads i) s t)
    (hs : exec i s = .next s') (ht : exec i t = .next t') : EmitAlike s t s' t' := by
  by_cases hprn : ∃ r, i = .prn (regByte r)
  · obtain ⟨r, rfl⟩ := hprn
    have hr : t.getReg r = s.getReg r := h.reg r (by simp [Instr.regReads])
    exact ⟨[s.getReg r], exec_prn_out hs, hr ▸ exec_prn_out ht⟩
  · have hne := not_exists.mp hprn
    exact ⟨[], by simp [exec_out_of_ne_prn hne hs], by simp [exec_out_of_ne_prn hne ht]⟩

/-- Errors halt alike: on one operand byte, at one `pc`. -/
theorem raiseHalt_statusAlike {s t : State} (hpc : t.pc = s.pc) (reason : HaltReason) (b : Byte) :
    StatusAlike s t (s.raiseHalt reason b) (t.raiseHalt reason b) :=
  .inr (.inr ⟨rfl, hpc, rfl⟩)

theorem exec_statusAlike {i : Instr} {s t s' t' : State} (hpc : t.pc = s.pc)
    (hs : exec i s = .next s') (ht : exec i t = .next t') : StatusAlike s t s' t' := by
  cases hwf : i.wellFormed with
  | false =>
    obtain ⟨b, hb⟩ := exec_of_not_wellFormed hwf
    cases (hb s).symm.trans hs
    cases (hb t).symm.trans ht
    exact raiseHalt_statusAlike hpc _ b
  | true =>
    by_cases hhlt : i = .hlt
    · subst hhlt
      cases (exec_hlt s).symm.trans hs
      cases (exec_hlt t).symm.trans ht
      exact .inr (.inl ⟨rfl, rfl, ⟨rfl, rfl, rfl⟩, rfl, rfl, rfl⟩)
    · exact .inl ⟨exec_statusSame hwf hhlt hs, exec_statusSame hwf hhlt ht⟩

/-- Two Running steps from states that agree on what the step reads agree on what it writes, `out` and the status in the way
each is written (R91). -/
theorem engineStep_agreeOn {m : OpcodeMap} {s t : State} (hrun : s.run = .running) (h : AgreeOn (readsAt m s) s t) :
    ∃ s' t', engineStep m s = .next s' ∧ engineStep m t = .next t' ∧
      AgreeOn (writesAt m s) s' t' ∧ EmitAlike s t s' t' ∧ StatusAlike s t s' t' := by
  have hrun' : t.run = .running := h.run.trans hrun
  have hdecode := h.fetchDecode_eq m
  cases hd : fetchDecode m s with
  | reject e =>
    have hs := engineStep_of_reject hrun hd
    have ht := engineStep_of_reject hrun' (hdecode.trans hd)
    rw [h.fetch_eq] at ht
    rw [writesAt_of_reject hd]
    exact ⟨_, _, hs, ht, (h.raiseHalt _ _).mono (List.nil_subset _), ⟨[], by simp, by simp⟩,
      raiseHalt_statusAlike h.pc _ _⟩
  | instr i =>
    rw [readsAt_of_instr hd] at h
    obtain ⟨s', t', hs, ht, hagree⟩ := exec_agreeOn h
    rw [writesAt_of_instr hd]
    exact ⟨s', t', (engineStep_of_instr hrun hd).trans hs, (engineStep_of_instr hrun' (hdecode.trans hd)).trans ht,
      hagree, exec_emitAlike h hs ht, exec_statusAlike h.pc hs ht⟩

end Sys2Proof.Machine
end

section
/-! The obligations of 40_engine_cycle.md. -/
namespace Sys2Proof.Machine

/-- Settles O11: each clause names the first operand byte that is invalid, and that byte decides. -/
theorem registerOperandsCheckedInOrder : Obligations.RegisterOperandsCheckedInOrder := by
  refine fun m s hrun => ⟨fun hl => engineStep_of_lookup_none hrun hl, fun op hl hop ha => ?a, fun op hl hop ha hb => ?b,
    fun hl => ?hlt, rfl⟩
  case a =>
    have hformat : op.format ≠ .n := by fin_cases hop <;> decide
    exact engineStep_of_invalid hrun hl (Opcode.find?_invalid_of_a hformat ha)
  case b =>
    have hformat : op.format = .rr := by fin_cases hop <;> rfl
    exact engineStep_of_invalid hrun hl (Opcode.find?_invalid_of_b hformat ha hb)
  case hlt => exact ⟨_, engineStep_of_lookup_some hrun hl, rfl⟩

/-- Settles O13: a Running step always has a next state, and sampling the ports leads to the stated run states. -/
theorem stepExistsExactlyWhileRunning : Obligations.StepExistsExactlyWhileRunning := by
  refine ⟨fun m s => ⟨fun ⟨_, h⟩ => running_of_engineStep_next h, engineStep_exists_next⟩, fun p s hs hp => ?halted,
    fun p s t m hp h => ?reset⟩
  case halted => exact sampleInputs_idle hp (by simp [hs])
  case reset => cases (sampleInputs_run_of_rst hp s).symm.trans (running_of_engineStep_next h)

/-- Settles O14: the step runs the decoded instruction, and its count is the fetched byte's under a legal map. -/
theorem pcAdvancesByLengthExceptCallRet : Obligations.PcAdvancesByLengthExceptCallRet := by
  intro m s t hm hrun h
  have hexec : ∀ {i}, fetchDecode m s = .instr i → exec i s = .next t := fun hd =>
    (engineStep_of_instr hrun hd).symm.trans h
  refine ⟨fun i hd hwf hcall hret => ?advance, fun r hd => ?call, fun hd => ?ret, fun i hd hwf => ?invalidRegister,
    fun e hd => ?invalidOpcode⟩
  case advance =>
    have hcount : operandCount (fetch s).ir = i.opcode.count := by
      rw [← OpcodeMap.byteOf_of_lookup (lookup_of_fetchDecode_instr hd).1, hm.operandCount_byteOf]
    rw [exec_pc_of_wellFormed hwf hcall hret (hexec hd), hcount, Nat.add_assoc, ofNat_toNat_add_mod, BitVec.ofNat_add,
      BitVec.add_assoc]
  case call =>
    cases (exec_call_regByte s r).symm.trans (hexec hd)
    rfl
  case ret =>
    cases (exec_ret s).symm.trans (hexec hd)
    rfl
  case invalidRegister =>
    obtain ⟨b, hb⟩ := exec_of_not_wellFormed hwf
    cases (hb s).symm.trans (hexec hd)
    rfl
  case invalidOpcode =>
    cases (engineStep_of_reject hrun hd).symm.trans h
    rfl

/-- Settles O15: a register the table has the step write is SP or named by a register operand, and register 4 is not SP. -/
theorem stepWritesOnlyTheNamedRegisters : Obligations.StepWritesOnlyTheNamedRegisters := by
  refine fun m s t h => ⟨engineStep_regsSameBut h, fun hnamed => engineStep_regsSameBut h 4 fun hmem => ?_⟩
  cases hd : fetchDecode m s with
  | reject e =>
    rw [writesAt_of_reject hd] at hmem
    cases hmem
  | instr i =>
    rw [writesAt_of_instr hd] at hmem
    rcases Instr.regByte_mem_of_mem_regWrites hmem with hop | hsp
    · exact hnamed i hd hop
    · exact absurd hsp (by decide)

/-- Settles O16: `engineStep_agreeOn`, and the frame of each of the two steps. -/
theorem stepReadsOnlyPcMemoryNamedRegistersAndRun : Obligations.StepReadsOnlyPcMemoryNamedRegistersAndRun := by
  intro m s t hs ht hpc hmem hreg
  have h : AgreeOn (readsAt m s) s t := ⟨hpc, hmem, ht.trans hs.symm, hreg⟩
  obtain ⟨s', t', hs', ht', hagree, hemit, hstatus⟩ := engineStep_agreeOn hs h
  have hwrites : writesAt m t = writesAt m s := by rw [writesAt, writesAt, h.fetchDecode_eq m]
  exact ⟨s', t', hs', ht', hagree.pc, hagree.mem, hagree.run, hagree.reg, engineStep_regsSameBut hs',
    hwrites ▸ engineStep_regsSameBut ht', hemit, hstatus⟩

/-- Settles O7: `fetch` by its definition, the wrapped addresses as sums of bytes. -/
theorem fetchByCountWithWrap : Obligations.FetchByCountWithWrap := fun s => by
  rw [ofNat_toNat_add_mod, ofNat_toNat_add_mod]
  exact ⟨fetch_ir s, operandCount_eq_div _, rfl, rfl⟩

/-- Settles O8: a decoded instruction is run, and an encoding in memory is decoded. -/
theorem stepRunsTheDecodedInstruction : Obligations.StepRunsTheDecodedInstruction :=
  ⟨step_eq, fun _ _ _ hrun => ⟨engineStep_of_instr hrun, fun hm hmem =>
    have hd := fetchDecode_of_encode hm hmem
    ⟨hd, engineStep_of_instr hrun hd⟩⟩⟩

/-- Settles O10: the InvalidOpcode halt, whose reason has code 2. -/
theorem unknownByteTakesInvalidOpcodeHalt : Obligations.UnknownByteTakesInvalidOpcodeHalt := fun _ _ hrun hl =>
  ⟨_, engineStep_of_lookup_none hrun hl, rfl, rfl⟩

end Sys2Proof.Machine
end

section
/-! SUPPORT. Rules the obligations of 41_alu.md need: what the ALU does for each operation, the signed reading of its
results, what writing one register and advancing leaves alone, and the halts of an instruction with two operand bytes. -/
namespace Sys2Proof.Machine

/-! ### The ALU, operation by operation (R100) -/

@[simp] theorem aluApply_add (ra rb : RegIdx) (s : State) :
    aluApply .add ra rb s = s.setReg ra (aluAdd (s.getReg ra) (s.getReg rb)) := rfl

@[simp] theorem aluApply_mul (ra rb : RegIdx) (s : State) :
    aluApply .mul ra rb s = s.setReg ra (aluMul (s.getReg ra) (s.getReg rb)) := rfl

@[simp] theorem aluApply_other (ra rb : RegIdx) (s : State) : aluApply .other ra rb s = s := rfl

/-- All the ALU can do: nothing, or one write of its destination. -/
theorem aluApply_cases (op : AluOp) (ra rb : RegIdx) (s : State) :
    aluApply op ra rb s = s ∨ ∃ v, aluApply op ra rb s = s.setReg ra v := by
  cases op with
  | add => exact .inr ⟨_, aluApply_add ra rb s⟩
  | mul => exact .inr ⟨_, aluApply_mul ra rb s⟩
  | other => exact .inl (aluApply_other ra rb s)

/-! ### Signedness and the order of the operands (R103): both results are those of bit vectors -/

/-- The unsigned sum, read as two's complement, is the signed sum reduced to 8 bits. -/
theorem aluAdd_toInt (u v : Byte) : (aluAdd u v).toInt = (u.toInt + v.toInt).bmod 256 := by
  rw [aluAdd_eq]
  exact BitVec.toInt_add u v

/-- The low 8 bits of the unsigned product, read as two's complement, are the signed product reduced to 8 bits. -/
theorem aluMul_toInt (u v : Byte) : (aluMul u v).toInt = (u.toInt * v.toInt).bmod 256 := by
  rw [aluMul_eq]
  exact BitVec.toInt_mul u v

theorem aluAdd_comm (u v : Byte) : aluAdd u v = aluAdd v u := by
  rw [aluAdd_eq, aluAdd_eq, BitVec.add_comm]

theorem aluMul_comm (u v : Byte) : aluMul u v = aluMul v u := by
  rw [aluMul_eq, aluMul_eq, BitVec.mul_comm]

/-! ### The frame of an instruction that writes one register and advances -/

theorem State.regsSameBut_setReg (s : State) (r : RegIdx) (v : Byte) : RegsSameBut [r] s (s.setReg r v) :=
  fun q hq => State.getReg_setReg_ne s r q v (List.ne_of_not_mem_cons hq)

/-- With two operand bytes the common advance is by 3 (R87). -/
theorem State.advance_pc_of_count_two (s : State) {op : Opcode} (hop : op.count = 2) :
    (s.advance op).pc = s.pc + 3#8 := by
  rw [State.advance_pc, hop, BitVec.add_assoc]
  rfl

/-- Writing `r` and advancing over two operand bytes: nothing but `r` and `pc` changes. -/
theorem State.advance_setReg_frame {s t : State} {op : Opcode} {r : RegIdx} {v : Byte} (hop : op.count = 2)
    (ht : t = (s.setReg r v).advance op) :
    t.pc = s.pc + 3#8 ∧ RegsSameBut [r] s t ∧ MemSame s t ∧ StatusSame s t ∧ t.out = s.out := by
  subst ht
  exact ⟨State.advance_pc_of_count_two _ hop, State.regsSameBut_setReg s r v, fun _ => rfl, ⟨rfl, rfl, rfl, rfl, rfl⟩, rfl⟩

/-! ### The InvalidRegister halts of an instruction, by operand (R85, R142) -/

theorem exec_assemble_of_invalid_a {op : Opcode} {a b : Byte} (s : State) (hop : op.format ≠ .n) (ha : 8 ≤ a.toNat) :
    exec (op.assemble a b) s = .next (invalidRegisterState s a) :=
  exec_of_invalid _ s (by rw [Opcode.assemble_regOperands, Opcode.find?_invalid_of_a hop ha])

theorem exec_assemble_of_invalid_b {op : Opcode} {a b : Byte} (s : State) (hop : op.format = .rr) (ha : a.toNat < 8)
    (hb : 8 ≤ b.toNat) : exec (op.assemble a b) s = .next (invalidRegisterState s b) :=
  exec_of_invalid _ s (by rw [Opcode.assemble_regOperands, Opcode.find?_invalid_of_b hop ha hb])

end Sys2Proof.Machine
end

section
/-! The obligations of 41_alu.md. -/
namespace Sys2Proof.Machine

/-- Settles O20: ADD of two registers writes one register and advances, and an invalid operand byte decides otherwise. -/
theorem addWritesTheSumMod256 : Obligations.AddWritesTheSumMod256 := by
  refine ⟨fun s ra rb => ⟨_, exec_add_regByte s ra rb, ?sum, State.advance_setReg_frame rfl rfl⟩,
    fun s _ _ ha => exec_assemble_of_invalid_a (op := .add) s nofun ha,
    fun s _ _ ha hb => exec_assemble_of_invalid_b (op := .add) s rfl ha hb, fun _ _ => rfl⟩
  case sum => rw [State.getReg_advance, State.getReg_setReg_self, ← aluAdd_eq, aluAdd_toNat]

/-- Settles O21: MUL of two registers writes one register and advances, and an invalid operand byte decides otherwise. -/
theorem mulWritesTheProductMod256 : Obligations.MulWritesTheProductMod256 := by
  refine ⟨fun s ra rb => ⟨_, exec_mul_regByte s ra rb, ?product, State.advance_setReg_frame rfl rfl⟩,
    fun s _ _ ha => exec_assemble_of_invalid_a (op := .mul) s nofun ha,
    fun s _ _ ha hb => exec_assemble_of_invalid_b (op := .mul) s rfl ha hb, fun _ _ => rfl⟩
  case product => rw [State.getReg_advance, State.getReg_setReg_self, ← aluMul_eq, aluMul_toNat]

/-- Settles O22: every operation is at most one write of the destination, which `aluApply_cases` says. -/
theorem aluWritesOnlyItsDestination : Obligations.AluWritesOnlyItsDestination := by
  refine fun s ra rb => ⟨aluApply_other ra rb s, fun op => ?frame, ?sum, ?product⟩
  case frame =>
    rcases aluApply_cases op ra rb s with h | ⟨v, h⟩ <;> rw [h]
    · exact ⟨rfl, fun _ _ => rfl⟩
    · exact ⟨rfl, State.regsSameBut_setReg s ra v⟩
  case sum => rw [aluApply_add, State.getReg_setReg_self, aluAdd_toNat]
  case product => rw [aluApply_mul, State.getReg_setReg_self, aluMul_toNat]

/-- Settles O23: the ALU's results are the sum and the product of bit vectors, which have no sign. -/
theorem arithmeticIgnoresSign : Obligations.ArithmeticIgnoresSign := fun u v =>
  ⟨aluAdd_toInt u v, aluMul_toInt u v, aluAdd_comm u v, aluMul_comm u v⟩

end Sys2Proof.Machine
end

section
/-! SUPPORT. Rules the obligations of 42_register_io.md need: the common advance as one sum, the effect of PRN and of HLT on
each part of the state, and that no step leaves Halted. -/
namespace Sys2Proof.Machine

/-- The common advance is by the instruction's length, its count + 1 (R87). -/
theorem State.advance_pc_eq_add_length (s : State) (op : Opcode) :
    (s.advance op).pc = s.pc + BitVec.ofNat 8 (op.count + 1) := by
  rw [State.advance_pc, BitVec.ofNat_add, BitVec.add_assoc]

/-- Emitting and advancing changes nothing but `out` and `pc`. -/
theorem State.advance_emit_frame (s : State) (v : Byte) (op : Opcode) :
    RegsSameBut [] s ((s.emit v).advance op) ∧ MemSame s ((s.emit v).advance op) ∧
    StatusSame s ((s.emit v).advance op) :=
  ⟨fun _ _ => rfl, fun _ => rfl, rfl, rfl, rfl, rfl, rfl⟩

/-- Halting without an error and advancing changes nothing but `run`, the halt reason and `pc`. -/
theorem State.advance_halt_frame (s : State) (reason : HaltReason) (op : Opcode) :
    RegsSameBut [] s ((s.halt reason).advance op) ∧ MemSame s ((s.halt reason).advance op) ∧
    DiagSame s ((s.halt reason).advance op) ∧ ((s.halt reason).advance op).out = s.out :=
  ⟨fun _ _ => rfl, fun _ => rfl, ⟨rfl, rfl, rfl⟩, rfl⟩

/-- No step exists in Halted (R80). -/
theorem step_ne_next_of_halted {s : State} (hs : s.run = .halted) (t : State) : step s ≠ .next t := fun h =>
  nomatch hs.symm.trans (running_of_engineStep_next h)

end Sys2Proof.Machine
end

section
/-! The obligations of 42_register_io.md. -/
namespace Sys2Proof.Machine

/-- Settles O24: LDI of a register is one write of that register and the advance; an invalid operand A decides otherwise. -/
theorem ldiLoadsTheImmediate : Obligations.LdiLoadsTheImmediate := by
  refine ⟨fun s ra imm => ⟨_, exec_ldi_regByte s ra imm, ?value, State.advance_setReg_frame rfl rfl⟩,
    fun s _ _ ha => exec_assemble_of_invalid_a (op := .ldi) s nofun ha, fun _ _ => rfl⟩
  case value => rw [State.getReg_advance, State.getReg_setReg_self]

/-- Settles O25: PRN of a register emits its byte and advances, so the output port pulses it; an invalid operand A decides
otherwise. -/
theorem prnEmitsTheRegister : Obligations.PrnEmitsTheRegister := by
  refine ⟨fun s ra => ?valid, fun s a ha => exec_assemble_of_invalid_a (op := .prn) (b := 0#8) s nofun ha, fun _ => rfl⟩
  case valid =>
    have hout : ((s.emit (s.getReg ra)).advance .prn).out = s.out ++ [s.getReg ra] := rfl
    exact ⟨_, exec_prn_regByte s ra, hout, outPort_of_out_append hout, State.advance_pc_eq_add_length _ .prn,
      State.advance_emit_frame s _ .prn⟩

/-- Settles O26: HLT halts and advances, and no step exists in Halted. -/
theorem hltHaltsAndAdvances : Obligations.HltHaltsAndAdvances := by
  refine ⟨fun s => ?_, rfl⟩
  obtain ⟨hregs, hmem, hdiag, hout⟩ := State.advance_halt_frame s .hlt .hlt
  exact ⟨_, exec_hlt s, rfl, rfl, rfl, State.advance_pc_eq_add_length _ .hlt, hregs, hmem, hdiag, hout,
    step_ne_next_of_halted rfl⟩

end Sys2Proof.Machine
end

section
/-! SUPPORT. Rules the obligations of 43_stack.md need: what a push and a pop do to SP and memory, which instructions leave SP
alone, what a sequence of instructions does, and what balanced stack code keeps. -/
namespace Sys2Proof.Machine

/-! ### A push and a pop (R120), as far as SP and memory go -/

/-- `t` is `s` after a push: SP is decremented, and only the cell at the new SP may differ. -/
structure Pushed (s t : State) : Prop where
  sp : t.sp = s.sp - 1#8
  mem : MemSameBut (s.sp - 1#8) s t

/-- `t` is `s` after a pop: SP is incremented, and memory is only read. -/
structure Popped (s t : State) : Prop where
  sp : t.sp = s.sp + 1#8
  mem : MemSame s t

section
variable {s t : State} {r : RegIdx}

theorem pushed_of_exec_push (h : exec (.push (regByte r)) s = .next t) : Pushed s t := by
  cases (exec_push_regByte s r).symm.trans h
  exact ⟨State.sp_decSp s, fun b hb => State.memRead_memWrite_ne s.decSp _ b _ hb⟩

theorem pushed_of_exec_call (h : exec (.call (regByte r)) s = .next t) : Pushed s t := by
  cases (exec_call_regByte s r).symm.trans h
  exact ⟨State.sp_decSp s, fun b hb => State.memRead_memWrite_ne s.decSp _ b _ hb⟩

theorem popped_of_exec_pop (hr : r ≠ Config.spIndex) (h : exec (.pop (regByte r)) s = .next t) : Popped s t := by
  cases (exec_pop_regByte s r).symm.trans h
  refine ⟨?_, fun _ => rfl⟩
  rw [State.sp_advance, State.sp_incSp, State.sp_setReg, if_neg hr.symm]

theorem popped_of_exec_ret (h : exec .ret s = .next t) : Popped s t := by
  cases (exec_ret s).symm.trans h
  exact ⟨State.sp_incSp _, fun _ => rfl⟩

/-- POP into a register other than R7 leaves the byte at SP in it (R122). -/
theorem getReg_of_exec_pop (hr : r ≠ Config.spIndex) (h : exec (.pop (regByte r)) s = .next t) :
    t.getReg r = s.memRead s.sp := by
  cases (exec_pop_regByte s r).symm.trans h
  rw [State.getReg_advance, State.getReg_incSp, if_neg hr, State.getReg_setReg_self]

/-- POP into R7: the increment applies to the popped byte (R122). -/
theorem sp_of_exec_pop_sp (h : exec (.pop (regByte Config.spIndex)) s = .next t) : t.sp = s.memRead s.sp + 1#8 := by
  cases (exec_pop_regByte s Config.spIndex).symm.trans h
  rw [State.sp_advance, State.sp_incSp, State.sp_setReg, if_pos rfl]

theorem Instr.exists_regByte_of_wellFormed {i : Instr} {a : Byte} (hwf : i.wellFormed = true) (ha : a ∈ i.regOperands) :
    ∃ r : RegIdx, a = regByte r :=
  (validRegByte_iff a).mp (List.all_eq_true.mp hwf a ha)

/-- A well-formed PUSH or CALL is a push. -/
theorem pushed_of_wellFormed {i : Instr} (hop : i.opcode ∈ [Opcode.push, .call]) (hwf : i.wellFormed = true)
    (h : exec i s = .next t) : Pushed s t := by
  cases i with
  | push a =>
    obtain ⟨r, rfl⟩ := Instr.exists_regByte_of_wellFormed hwf (List.mem_singleton_self a)
    exact pushed_of_exec_push h
  | call a =>
    obtain ⟨r, rfl⟩ := Instr.exists_regByte_of_wellFormed hwf (List.mem_singleton_self a)
    exact pushed_of_exec_call h
  | hlt | ret | pop | prn | ldi | add | mul => simp [Instr.opcode] at hop

/-- An instruction the table of R21 does not have write R7 leaves SP (R120). -/
theorem sp_of_notMem_regWrites {i : Instr} (hi : Config.spIndex ∉ Instr.regWrites i) (h : exec i s = .next t) :
    t.sp = s.sp :=
  exec_regsSameBut h Config.spIndex hi

end

theorem Instr.regWrites_of_hlt_prn {i : Instr} (hop : i.opcode ∈ [Opcode.hlt, .prn]) : Instr.regWrites i = [] := by
  cases i with
  | hlt | prn => rfl
  | ret | push | pop | call | ldi | add | mul => simp [Instr.opcode] at hop

/-! ### Instruction sequences -/

theorem execAll_cons {i : Instr} {rest : List Instr} {s t : State} (h : exec i s = .next t) :
    execAll (i :: rest) s = execAll rest t := by
  rw [execAll, h]

theorem execAll_append {l rest : List Instr} {s t : State} (h : execAll l s = .next t) :
    execAll (l ++ rest) s = execAll rest t := by
  induction l generalizing s with
  | nil =>
    cases h
    rfl
  | cons i l ih =>
    obtain ⟨u, hu⟩ := exec_exists_next i s
    rw [List.cons_append, execAll_cons hu]
    exact ih ((execAll_cons hu).symm.trans h)

/-- An instruction, then `body`, then an instruction, each run from where the one before ended. -/
theorem execAll_enclosed {i j : Instr} {body rest : List Instr} {s t u v : State} (hi : exec i s = .next t)
    (hbody : execAll body t = .next u) (hj : exec j u = .next v) :
    execAll (i :: (body ++ j :: rest)) s = execAll rest v := by
  rw [execAll_cons hi, execAll_append hbody, execAll_cons hj]

/-! ### What balanced stack code keeps (R123) -/

/-- What stack code that pushes at most `k` bytes beyond its start keeps: SP, and the `256 - k` cells from SP up that those
pushes do not reach. -/
structure StackKept (k : Nat) (s t : State) : Prop where
  sp : t.sp = s.sp
  cells : ∀ d : Nat, d < 256 - k → t.memRead (s.sp + BitVec.ofNat 8 d) = s.memRead (s.sp + BitVec.ofNat 8 d)

section
variable {k j : Nat} {s t u v : State}

theorem StackKept.refl (k : Nat) (s : State) : StackKept k s s := ⟨rfl, fun _ _ => rfl⟩

theorem StackKept.trans (h : StackKept k s t) (h' : StackKept j t u) : StackKept (max k j) s u where
  sp := h'.sp.trans h.sp
  cells d hd := by
    have hu := h'.cells d (by omega)
    rw [h.sp] at hu
    exact hu.trans (h.cells d (by omega))

/-- The byte at SP is kept unless the pushes go all the way round. -/
theorem StackKept.memRead_sp (h : StackKept k s t) (hk : k < 256) : t.memRead t.sp = s.memRead s.sp := by
  simpa [h.sp] using h.cells 0 (by omega)

/-- A push, code that keeps the stack, and a pop keep the stack: the cell `d` above SP is `d + 1` above the pushed byte. -/
theorem StackKept.of_push_pop (hpush : Pushed s t) (hbody : StackKept k t u) (hpop : Popped u v) :
    StackKept (k + 1) s v where
  sp := by rw [hpop.sp, hbody.sp, hpush.sp, BitVec.sub_add_cancel]
  cells d hd := by
    have haddr : s.sp + BitVec.ofNat 8 d = t.sp + BitVec.ofNat 8 (d + 1) := by
      rw [hpush.sp]
      bv_omega
    have hother : s.sp + BitVec.ofNat 8 d ≠ s.sp - 1#8 := by bv_omega
    calc v.memRead (s.sp + BitVec.ofNat 8 d)
        = u.memRead (t.sp + BitVec.ofNat 8 (d + 1)) := by rw [hpop.mem, haddr]
      _ = t.memRead (s.sp + BitVec.ofNat 8 d) := by rw [hbody.cells (d + 1) (by omega), haddr]
      _ = s.memRead (s.sp + BitVec.ofNat 8 d) := hpush.mem _ hother

end

theorem StackNeutral.notMem_regWrites {i : Instr} (h : StackNeutral i = true) :
    Config.spIndex ∉ Instr.regWrites i := by
  cases i with
  | prn => exact List.not_mem_nil
  | ldi | add | mul =>
    simp only [StackNeutral, Bool.and_eq_true, bne_iff_ne] at h
    exact fun hmem => h.2 (mem_regOperand_toList.mp hmem)
  | hlt | ret | push | pop | call => cases h

/-- A neutral instruction keeps SP and, being no PUSH and no CALL, all of memory. -/
theorem StackNeutral.stackKept {i : Instr} {s t : State} (h : StackNeutral i = true) (he : exec i s = .next t) :
    StackKept 0 s t := by
  refine ⟨sp_of_notMem_regWrites (StackNeutral.notMem_regWrites h) he, fun d _ => ?_⟩
  rcases exec_mem_cases he with hmem | ⟨_, _, rfl | rfl, -⟩
  · exact State.memRead_of_mem_eq hmem _
  · cases h
  · cases h

/-- From every state the instruction sequence completes and keeps the stack. -/
def KeepsStack (k : Nat) (l : List Instr) : Prop := ∀ s, ∃ t, execAll l s = .next t ∧ StackKept k s t

theorem KeepsStack.neutral {k : Nat} {i : Instr} {l : List Instr} (hi : StackNeutral i = true) (hl : KeepsStack k l) :
    KeepsStack k (i :: l) := by
  intro s
  obtain ⟨t, ht⟩ := exec_exists_next i s
  obtain ⟨u, hu, hkept⟩ := hl t
  refine ⟨u, (execAll_cons ht).trans hu, ?_⟩
  simpa using (StackNeutral.stackKept hi ht).trans hkept

/-- An instruction that pushes and one that pops, around one sequence and before another. -/
theorem KeepsStack.enclosed {k j : Nat} {push pop : Instr} {body rest : List Instr}
    (hpush : ∀ {s t}, exec push s = .next t → Pushed s t) (hpop : ∀ {s t}, exec pop s = .next t → Popped s t)
    (hbody : KeepsStack k body) (hrest : KeepsStack j rest) :
    KeepsStack (max (k + 1) j) (push :: (body ++ pop :: rest)) := by
  intro s
  obtain ⟨t, ht⟩ := exec_exists_next push s
  obtain ⟨u, hu, hkept⟩ := hbody t
  obtain ⟨v, hv⟩ := exec_exists_next pop u
  obtain ⟨w, hw, hkept'⟩ := hrest v
  exact ⟨w, (execAll_enclosed ht hu hv).trans hw, (StackKept.of_push_pop (hpush ht) hkept (hpop hv)).trans hkept'⟩

/-- Balanced code keeps the stack, whatever the state it starts from. -/
theorem Balanced.keepsStack {k : Nat} {l : List Instr} (h : Balanced k l) : KeepsStack k l := by
  induction h with
  | nil => exact fun s => ⟨s, rfl, StackKept.refl 0 s⟩
  | neutral i hi _ ih => exact KeepsStack.neutral hi ih
  | pushPop a b _ hb _ _ ihbody ihrest =>
    exact KeepsStack.enclosed pushed_of_exec_push (popped_of_exec_pop hb) ihbody ihrest
  | callRet a _ _ ihbody ihrest =>
    exact KeepsStack.enclosed pushed_of_exec_call popped_of_exec_ret ihbody ihrest

end Sys2Proof.Machine
end

section
/-! The obligations of 43_stack.md. -/
namespace Sys2Proof.Machine

/-- Settles O32: balanced code keeps the stack, so the byte a PUSH put is still at SP for its POP. -/
theorem stackIsLastInFirstOut : Obligations.StackIsLastInFirstOut := by
  refine ⟨fun k l s hl _ _ => ?kept, fun k body a b s hbody hk hwf ha hb => ?lifo⟩
  case kept =>
    obtain ⟨t, ht, hkept⟩ := hl.keepsStack s
    exact ⟨t, ht, hkept.sp, hkept.cells⟩
  case lifo =>
    obtain ⟨t, ht⟩ := exec_exists_next (.push (regByte a)) s
    obtain ⟨u, hu, hkept⟩ := hbody.keepsStack t
    obtain ⟨v, hv⟩ := exec_exists_next (.pop (regByte b)) u
    have hpush := pushed_of_exec_push ht
    refine ⟨v, execAll_enclosed ht hu hv, ?_, (StackKept.of_push_pop hpush hkept (popped_of_exec_pop hb hv)).sp⟩
    calc v.getReg b
        = u.memRead u.sp := getReg_of_exec_pop hb hv
      _ = t.memRead (s.sp - 1#8) := by rw [hkept.memRead_sp hk, hpush.sp]
      _ = s.decSp.getReg a := memRead_of_exec_push hwf ht
      _ = s.getReg a := by rw [push_byte, if_neg ha]

/-- Settles O31: the step runs the decoded instruction, which pushes, pops, halts, or does not write R7. -/
theorem stackPointerMovesByOne : Obligations.StackPointerMovesByOne := by
  intro m s t i hrun hd hstep
  have h : exec i s = .next t := (engineStep_of_instr hrun hd).symm.trans hstep
  refine ⟨fun hop hwf => (pushed_of_wellFormed hop hwf h).sp, fun hop => ?ret, fun r hi hr => ?pop,
    fun hop => sp_of_notMem_regWrites (by simp [Instr.regWrites_of_hlt_prn hop]) h,
    fun _ hi => sp_of_notMem_regWrites hi h, fun hwf => ?invalid⟩
  case ret =>
    cases i with
    | ret => exact (popped_of_exec_ret h).sp
    | hlt | push | pop | prn | call | ldi | add | mul => cases hop
  case pop =>
    subst hi
    exact (popped_of_exec_pop hr h).sp
  case invalid =>
    obtain ⟨b, hb⟩ := exec_of_not_wellFormed hwf
    cases (hb s).symm.trans h
    rfl

/-- Settles O27: PUSH of a register is a push of that register's byte after the decrement; an invalid operand A decides
otherwise. -/
theorem pushStoresBelowTheStackPointer : Obligations.PushStoresBelowTheStackPointer := by
  refine ⟨fun s ra => ?valid, fun s a ha => exec_assemble_of_invalid_a (op := .push) (b := 0#8) s nofun ha, fun _ => rfl⟩
  case valid =>
    have h := exec_push_regByte s ra
    have hpush := pushed_of_exec_push h
    exact ⟨_, h, hpush.sp, fun hwf => (memRead_of_exec_push hwf h).trans (push_byte s ra),
      State.advance_pc_eq_add_length _ .push, exec_regsSameBut h, hpush.mem, ⟨rfl, rfl, rfl, rfl, rfl⟩, rfl⟩

/-- Settles O28: POP of a register writes it from the byte at SP and increments SP; an invalid operand A decides
otherwise. -/
theorem popLoadsFromTheStackPointer : Obligations.PopLoadsFromTheStackPointer := by
  refine ⟨fun s ra => ?valid, fun s a ha => exec_assemble_of_invalid_a (op := .pop) (b := 0#8) s nofun ha, fun _ => rfl⟩
  case valid =>
    have h := exec_pop_regByte s ra
    have hregs : Instr.regWrites (.pop (regByte ra)) = [ra, Config.spIndex] := by simp [Instr.regWrites]
    refine ⟨_, h, fun hr => ⟨getReg_of_exec_pop hr h, (popped_of_exec_pop hr h).sp⟩, fun hr => ?sp,
      State.advance_pc_eq_add_length _ .pop, hregs ▸ exec_regsSameBut h, fun _ => rfl, ⟨rfl, rfl, rfl, rfl, rfl⟩, rfl⟩
    case sp =>
      subst hr
      exact sp_of_exec_pop_sp h

end Sys2Proof.Machine
end

section
/-! SUPPORT. Rules the obligations of 44_control.md need: where CALL and RET leave `pc`. SP and memory are those of a push and
of a pop (`pushed_of_exec_call`, `memRead_of_exec_call`, `popped_of_exec_ret`). -/
namespace Sys2Proof.Machine

variable {s t : State}

/-- CALL jumps to its register as it is after the push (R130). -/
theorem pc_of_exec_call {r : RegIdx} (h : exec (.call (regByte r)) s = .next t) :
    t.pc = if r = Config.spIndex then s.sp - 1#8 else s.getReg r := by
  cases (exec_call_regByte s r).symm.trans h
  exact State.getReg_decSp s r

/-- RET takes the byte at SP (R131). -/
theorem pc_of_exec_ret (h : exec .ret s = .next t) : t.pc = s.memRead s.sp := by
  cases (exec_ret s).symm.trans h
  rfl

end Sys2Proof.Machine
end

section
/-! The obligations of 44_control.md. -/
namespace Sys2Proof.Machine

/-- Settles O33: the byte CALL pushed is the one RET takes, and the pop undoes the push's decrement of SP. -/
theorem retResumesAfterTheCall : Obligations.RetResumesAfterTheCall := by
  intro s t u ra hwf hcall husp humem
  have htsp : t.sp = s.sp - 1#8 := (pushed_of_exec_call hcall).sp
  obtain ⟨v, hret⟩ := exec_exists_next .ret u
  refine ⟨v, hret, ?pc, ?sp⟩
  case pc =>
    calc v.pc
        = u.memRead u.sp := pc_of_exec_ret hret
      _ = t.memRead (s.sp - 1#8) := by rw [humem, htsp]
      _ = s.pc + 2#8 := memRead_of_exec_call hwf hcall
      _ = BitVec.ofNat 8 ((s.pc.toNat + 2) % 256) := (ofNat_toNat_add_mod s.pc 2).symm
  case sp => rw [(popped_of_exec_ret hret).sp, husp, htsp, BitVec.sub_add_cancel]

/-- Settles O29: CALL of a register is a push of the return address and a jump; an invalid operand A decides otherwise. -/
theorem callPushesTheReturnAddressAndJumps : Obligations.CallPushesTheReturnAddressAndJumps := by
  refine ⟨fun s ra => ?valid, fun s a ha => exec_assemble_of_invalid_a (op := .call) (b := 0#8) s nofun ha, fun _ => rfl⟩
  case valid =>
    have h := exec_call_regByte s ra
    have hpush := pushed_of_exec_call h
    exact ⟨_, h, hpush.sp, fun hwf => memRead_of_exec_call hwf h, pc_of_exec_call h, exec_regsSameBut h, hpush.mem,
      ⟨rfl, rfl, rfl, rfl, rfl⟩, rfl⟩

/-- Settles O30: RET is a pop into `pc`, which writes no register but SP. -/
theorem retPopsThePc : Obligations.RetPopsThePc := by
  refine ⟨fun s => ?result, rfl⟩
  case result =>
    have h := exec_ret s
    have hpop := popped_of_exec_ret h
    exact ⟨_, h, pc_of_exec_ret h, hpop.sp, exec_regsSameBut h, hpop.mem, ⟨rfl, rfl, rfl, rfl, rfl⟩, rfl⟩

end Sys2Proof.Machine
end

section
/-! SUPPORT. Rules the obligation of 60_exceptions.md needs: when an instruction leaves Running, and with what records. -/
namespace Sys2Proof.Machine

/-- An ill-formed instruction is the InvalidRegister halt on a register operand of 8 or more (R85, R142). -/
theorem exec_invalidRegister_of_not_wellFormed {i : Instr} (h : i.wellFormed = false) (s : State) :
    ∃ b ∈ i.regOperands, 8 ≤ b.toNat ∧ exec i s = .next (s.raiseHalt .invalidRegister b) := by
  obtain ⟨b, hb⟩ := Instr.find?_invalid_of_not_wellFormed h
  have h8 : 8 ≤ b.toNat := by simpa [validRegByte] using List.find?_some hb
  exact ⟨b, List.mem_of_find?_eq_some hb, h8, exec_of_invalid i s hb⟩

/-- All an instruction can do to the engine status: leave it, halt as HLT, or halt on an invalid register operand (R140). -/
theorem exec_status_cases {i : Instr} {s t : State} (h : exec i s = .next t) :
    StatusSame s t ∨
    (i = .hlt ∧ t = (s.halt .hlt).advance .hlt) ∨
    ∃ b ∈ i.regOperands, 8 ≤ b.toNat ∧ t = s.raiseHalt .invalidRegister b := by
  cases hwf : i.wellFormed with
  | false =>
    obtain ⟨b, hb, h8, he⟩ := exec_invalidRegister_of_not_wellFormed hwf s
    cases he.symm.trans h
    exact .inr (.inr ⟨b, hb, h8, rfl⟩)
  | true =>
    by_cases hhlt : i = .hlt
    · subst hhlt
      cases (exec_hlt s).symm.trans h
      exact .inr (.inl ⟨rfl, rfl⟩)
    · exact .inl (exec_statusSame hwf hhlt h)

end Sys2Proof.Machine
end

section
/-! The obligation of 60_exceptions.md. -/
namespace Sys2Proof.Machine

/-- Settles O12: a rejected byte is the InvalidOpcode halt, and a decoded instruction is `exec_status_cases`. -/
theorem engineHaltsForThreeReasonsOnly : Obligations.EngineHaltsForThreeReasonsOnly := by
  intro m s hrun
  cases hd : fetchDecode m s with
  | reject e =>
    exact ⟨_, engineStep_of_reject hrun hd,
      .inr (.inr (.inl ⟨rfl, rfl, lookup_of_fetchDecode_reject hd, rfl, rfl, rfl⟩))⟩
  | instr i =>
    obtain ⟨t, ht⟩ := exec_exists_next i s
    refine ⟨t, (engineStep_of_instr hrun hd).trans ht, ?_⟩
    rcases exec_status_cases ht with ⟨hkeep, hrest⟩ | ⟨rfl, rfl⟩ | ⟨b, hb, h8, rfl⟩
    · exact .inl ⟨hkeep.trans hrun, hkeep, hrest⟩
    · exact .inr (.inl ⟨rfl, rfl, rfl, State.advance_pc_eq_add_length _ .hlt, rfl, rfl, rfl⟩)
    · exact .inr (.inr (.inr ⟨rfl, rfl, rfl, rfl, i, rfl, hb, h8⟩))

end Sys2Proof.Machine
end

section
/-! SUPPORT. Rules the obligations of 70_reset_and_hazards.md need: what one load cycle does, what a run of load cycles stores,
and what the memory reads as after the load. -/
namespace Sys2Proof.Machine

/-! ### One load cycle (R161) -/

theorem loadPort_of_loadWe {p : InputPorts} (hp : p.loadWe = true) (s : State) :
    loadPort p s = { s.memWrite p.loadAddr p.loadData with loadCount := p.loadCount } := by
  simp [loadPort, hp]

theorem loadPort_of_not_loadWe {p : InputPorts} (hp : p.loadWe = false) (s : State) :
    loadPort p s = { s with loadCount := p.loadCount } := by
  simp [loadPort, hp]

/-- The load port changes memory and the latch alone. -/
theorem loadPort_frame (p : InputPorts) (s : State) :
    loadPort p s = { s with mem := (loadPort p s).mem, loadCount := p.loadCount } := by
  cases hp : p.loadWe with
  | true => rw [loadPort_of_loadWe hp]; rfl
  | false => rw [loadPort_of_not_loadWe hp]

theorem memRead_loadPort_self {p : InputPorts} (hp : p.loadWe = true) {s : State} (hwf : s.mem.wf) :
    (loadPort p s).memRead p.loadAddr = p.loadData := by
  rw [loadPort_of_loadWe hp]
  exact State.memRead_memWrite_self s p.loadAddr p.loadData hwf

theorem memSame_loadPort_of_not_loadWe {p : InputPorts} (hp : p.loadWe = false) (s : State) :
    MemSame s (loadPort p s) := fun a => by
  rw [loadPort_of_not_loadWe hp]
  rfl

/-- A load cycle leaves every cell but the addressed one, with `load_we` or without. -/
theorem memSameBut_loadPort (p : InputPorts) (s : State) : MemSameBut p.loadAddr s (loadPort p s) := fun a ha => by
  cases hp : p.loadWe with
  | true => rw [loadPort_of_loadWe hp]; exact State.memRead_memWrite_ne s p.loadAddr a p.loadData ha
  | false => exact memSame_loadPort_of_not_loadWe hp s a

/-! ### Storing bytes at ascending addresses (R45) -/

/-- What is stored depends on memory alone, and nothing but memory changes: two states with one memory get one memory. -/
theorem State.storeBytes_eq_with_mem {s t : State} (h : s.mem = t.mem) (a : Byte) (bs : List Byte) :
    s.storeBytes a bs = { s with mem := (t.storeBytes a bs).mem } := by
  induction bs generalizing s t a with
  | nil => simp [← h]
  | cons v rest ih => exact ih (congrArg (·.write a v) h : (s.memWrite a v).mem = (t.memWrite a v).mem) (a + 1#8)

/-- After at most 256 bytes no store has overwritten another: a cell reads as the byte as far along the list as the cell is
from the first address, and as before when the list does not reach it. -/
theorem State.memRead_storeBytes {s : State} (hwf : s.mem.wf) (a b : Byte) {bs : List Byte} (hlen : bs.length ≤ 256) :
    (s.storeBytes a bs).memRead b = bs.getD (b - a).toNat (s.memRead b) := by
  induction bs generalizing s a with
  | nil => rfl
  | cons v rest ih =>
    have hrest : rest.length < 256 := hlen
    rw [State.storeBytes_cons, ih (State.memWrite_wf s a v hwf) (a + 1#8) hrest.le]
    by_cases hb : b = a
    · subst hb
      have hlast : (b - (b + 1#8)).toNat = 255 := by bv_omega
      rw [hlast, List.getD_eq_default _ _ (by omega), State.memRead_memWrite_self s b v hwf, BitVec.sub_self]
      rfl
    · have hnext : (b - a).toNat = (b - (a + 1#8)).toNat + 1 := by bv_omega
      rw [hnext, List.getD_cons_succ, State.memRead_memWrite_ne s a b v hb]

/-! ### The host's sequence (R160 to R163) -/

theorem sampleAll_cons (p : InputPorts) (ps : List InputPorts) (s : State) :
    sampleAll (p :: ps) s = sampleAll ps (sampleInputs p s) := rfl

theorem sampleAll_append (ps qs : List InputPorts) (s : State) :
    sampleAll (ps ++ qs) s = sampleAll qs (sampleAll ps s) := List.foldl_append

/-- Load cycles with the count that is already latched store their bytes and change nothing else. -/
theorem sampleAll_loadCycles {s : State} (hs : s.run = .heldInReset) (a : Byte) (bs : List Byte) :
    sampleAll (loadCycles s.loadCount a bs) s = s.storeBytes a bs := by
  induction bs generalizing s a with
  | nil => rfl
  | cons v rest ih =>
    rw [loadCycles, sampleAll_cons, sampleInputs_load rfl hs, loadPort_of_loadWe rfl]
    exact ih (s := s.memWrite a v) hs (a + 1#8)

/-- The launch state is the reset state but for memory and the latch (R163). -/
theorem launch_frame (program : List Byte) :
    launch program = { State.reset with mem := (launch program).mem, loadCount := (launch program).loadCount } := by
  rw [launch, State.storeBytes_eq_with_mem rfl]

/-- Held in reset with nothing loaded and `c` latched: what the first cycle of `hostLoad` leaves. -/
def heldWithCount (c : BitVec 9) : State := { heldState with loadCount := c }

/-- Reset and the load cycles store the program in the state reset gives, with its count latched. -/
theorem sampleAll_reset_loadCycles {p : InputPorts} (hp : p.rst = true) (hwe : p.loadWe = false) {s : State}
    (hs : s.run ≠ .heldInReset) (a : Byte) (bs : List Byte) :
    sampleAll (p :: loadCycles p.loadCount a bs) s = (heldWithCount p.loadCount).storeBytes a bs := by
  rw [sampleAll_cons, sampleInputs_reset hp hs, loadPort_of_not_loadWe hwe]
  exact sampleAll_loadCycles (s := heldWithCount p.loadCount) rfl a bs

/-- The start turns the loaded state into the launch state: both are the reset values but for the one memory and the latch. -/
theorem startRunning_storeBytes (program : List Byte) :
    startRunning ((heldWithCount (BitVec.ofNat 9 program.length)).storeBytes Config.loadBase program) = launch program := by
  have hmem : (heldWithCount (BitVec.ofNat 9 program.length)).mem = State.reset.mem := rfl
  rw [State.storeBytes_eq_with_mem hmem, launch_frame]
  rfl

theorem sampleAll_hostLoad (program : List Byte) {s : State} (hs : s.run ≠ .heldInReset) :
    sampleAll (hostLoad program) s = launch program := by
  have hload := sampleAll_reset_loadCycles (p := ⟨true, false, 0#8, 0#8, BitVec.ofNat 9 program.length⟩) rfl rfl hs
    Config.loadBase program
  have hrun : ((heldWithCount (BitVec.ofNat 9 program.length)).storeBytes Config.loadBase program).run = .heldInReset := by
    rw [State.storeBytes_eq_with_mem rfl]
    rfl
  rw [hostLoad, sampleAll_append, hload, sampleAll_cons, sampleInputs_start rfl hrun, startRunning_storeBytes]
  rfl

/-- The launch memory is the program from address 0, and 0x00 above it (R163). -/
theorem memRead_launch {program : List Byte} (hlen : program.length ≤ 256) (a : Byte) :
    (launch program).memRead a = program.getD a.toNat 0x00#8 := by
  have h := State.memRead_storeBytes (s := State.reset) (by decide) Config.loadBase a hlen
  rwa [Config.loadBase, BitVec.sub_zero] at h

end Sys2Proof.Machine
end

section
/-! The obligations of 70_reset_and_hazards.md. -/
namespace Sys2Proof.Machine

/-- Settles O42: the sequence from its three parts, the memory from the read after a store of the program. -/
theorem hostLoadReachesTheLaunchState : Obligations.HostLoadReachesTheLaunchState := fun program _ hlen hs =>
  ⟨sampleAll_hostLoad program hs, memRead_launch hlen, launch_frame program⟩

/-- Settles O38: the cycle is a load cycle on `heldState`, whose values are those tabled for reset. -/
theorem resetGivesTheResetValues : Obligations.ResetGivesTheResetValues := by
  rintro p s _ hp hs rfl
  have hstep : ∀ u, step (sampleInputs p s) ≠ .next u := fun u h => by
    cases (sampleInputs_run_of_rst hp s).symm.trans (running_of_engineStep_next h)
  obtain ⟨hreg, hsp, hpc, hmem, -, hreason, herrPc, herrByte, hout, -⟩ := resetStateIsAsTabled
  rw [sampleInputs_reset hp hs] at hstep ⊢
  have hunwritten : p.loadWe = false → ∀ a, (loadPort p heldState).memRead a = 0x00#8 := fun hwe a =>
    (memSame_loadPort_of_not_loadWe hwe heldState a).trans (hmem a)
  have hothers : ∀ a, a ≠ p.loadAddr → (loadPort p heldState).memRead a = 0x00#8 := fun a ha =>
    (memSameBut_loadPort p heldState a ha).trans (hmem a)
  rw [loadPort_frame] at hunwritten hothers hstep ⊢
  exact ⟨hreg, hsp, hpc, hunwritten, fun _ => hothers, hreason, herrPc, herrByte, hout, hstep⟩

/-- Settles O40, one clause for each case of a load cycle and one for `rst = 0`, where only the start acts. -/
theorem loadPortWritesOnlyDuringReset : Obligations.LoadPortWritesOnlyDuringReset := by
  refine ⟨fun p s hs hwf hp hwe => ?write, fun p s hs hp hwe => ?latch, fun p s hp => ?ignored⟩
  case write =>
    rw [sampleInputs_load hp hs]
    exact ⟨memRead_loadPort_self hwe hwf, memSameBut_loadPort p s, by rw [loadPort_frame], by rw [loadPort_run, hs]⟩
  case latch => rw [sampleInputs_load hp hs, loadPort_of_not_loadWe hwe]
  case ignored =>
    by_cases hs : s.run = .heldInReset
    · rw [sampleInputs_start hp hs]
      exact ⟨fun _ => rfl, rfl⟩
    · rw [sampleInputs_idle hp hs]
      exact ⟨fun _ => rfl, rfl⟩

/-- Settles O41: the start is `startRunning`, and a Running state has a next state. -/
theorem startRunsFromAddressZero : Obligations.StartRunsFromAddressZero := by
  intro p s hs hp
  rw [sampleInputs_start hp hs]
  exact ⟨rfl, fetch_ir _, engineStep_exists_next rfl⟩

end Sys2Proof.Machine
end

section
/-! SUPPORT. Rules the obligations on the invariant and on placed words need: the invariant by run state, that each part of a
step and of a port sampling keeps it, and what a fetch finds of bytes stored at `pc`. -/
namespace Sys2Proof.Machine

/-! ### Memory stays canonical (R43) -/

theorem engineStep_mem_wf {m : OpcodeMap} {s t : State} (hwf : s.mem.wf) (h : engineStep m s = .next t) : t.mem.wf := by
  rcases engineStep_mem_cases h with hmem | ⟨r, v, -, hmem⟩
  · rwa [hmem]
  · rw [hmem]
    exact Memory.write_wf s.mem _ v hwf

theorem loadPort_mem_wf (p : InputPorts) {s : State} (hwf : s.mem.wf) : (loadPort p s).mem.wf := by
  cases hp : p.loadWe with
  | true =>
    rw [loadPort_of_loadWe hp]
    exact State.memWrite_wf s p.loadAddr p.loadData hwf
  | false => rwa [loadPort_of_not_loadWe hp]

/-! ### The invariant, one run state at a time: the clauses on the other two are void -/

theorem inv_of_running {m : OpcodeMap} {s : State} (hwf : s.mem.wf) (hrun : s.run = .running)
    (hreason : s.haltReason = .none) (herr : ErrClear s) : Inv m s :=
  ⟨hwf, fun _ => ⟨hreason, herr⟩, fun h => (nomatch hrun.symm.trans h), fun h => (nomatch hrun.symm.trans h)⟩

theorem inv_of_halted {m : OpcodeMap} {s : State} (hwf : s.mem.wf) (hrun : s.run = .halted)
    (hrecord : HltRecord m s ∨ InvalidOpcodeRecord m s ∨ InvalidRegisterRecord m s) : Inv m s :=
  ⟨hwf, fun h => (nomatch hrun.symm.trans h), fun h => (nomatch hrun.symm.trans h), fun _ => hrecord⟩

/-! ### The three halts leave their records (R112, R141, R142) -/

theorem hltRecord_advance_halt {m : OpcodeMap} {s : State} (herr : ErrClear s)
    (hl : m.lookup (fetch s).ir = some .hlt) : HltRecord m ((s.halt .hlt).advance .hlt) := by
  have hpc : ((s.halt .hlt).advance .hlt).pc - 1#8 = s.pc := by
    rw [State.advance_pc]
    exact (BitVec.add_sub_cancel _ _).trans (BitVec.add_zero _)
  refine ⟨rfl, herr, ?_⟩
  rw [hpc]
  exact hl

theorem invalidOpcodeRecord_raiseHalt {m : OpcodeMap} {s : State} (hl : m.lookup (fetch s).ir = none) :
    InvalidOpcodeRecord m (s.raiseHalt .invalidOpcode (fetch s).ir) :=
  ⟨rfl, rfl, rfl, hl⟩

theorem invalidRegisterRecord_raiseHalt {m : OpcodeMap} {s : State} {i : Instr} {b : Byte}
    (hd : fetchDecode m s = .instr i) (hb : i.regOperands.find? (fun r => !validRegByte r) = some b) :
    InvalidRegisterRecord m (s.raiseHalt .invalidRegister b) := by
  obtain ⟨hl, hi⟩ := lookup_of_fetchDecode_instr hd
  refine ⟨rfl, rfl, i.opcode, Opcode.mem_all _, hl, ?_⟩
  rw [hi, Opcode.assemble_regOperands] at hb
  exact hb

/-! ### Steps and ports keep the invariant -/

/-- Whatever the map, by what the step fetched: a rejected byte and an ill-formed instruction halt with their records, HLT
halts with its own, and every other instruction leaves the engine status as it is. -/
theorem inv_engineStep {m : OpcodeMap} {s t : State} (hinv : Inv m s) (h : engineStep m s = .next t) : Inv m t := by
  have hrun := running_of_engineStep_next h
  obtain ⟨hwf, hclear, -, -⟩ := hinv
  obtain ⟨hreason, herr⟩ := hclear hrun
  have hwf' := engineStep_mem_wf hwf h
  cases hd : fetchDecode m s with
  | reject e =>
    cases (engineStep_of_reject hrun hd).symm.trans h
    exact inv_of_halted hwf' rfl (.inr (.inl (invalidOpcodeRecord_raiseHalt (lookup_of_fetchDecode_reject hd))))
  | instr i =>
    have hexec : exec i s = .next t := (engineStep_of_instr hrun hd).symm.trans h
    cases hvalid : i.wellFormed with
    | false =>
      obtain ⟨b, hb⟩ := Instr.find?_invalid_of_not_wellFormed hvalid
      cases (exec_of_invalid i s hb).symm.trans hexec
      exact inv_of_halted hwf' rfl (.inr (.inr (invalidRegisterRecord_raiseHalt hd hb)))
    | true =>
      by_cases hhlt : i = .hlt
      · subst hhlt
        cases (exec_hlt s).symm.trans hexec
        exact inv_of_halted hwf' rfl (.inl (hltRecord_advance_halt herr (lookup_of_fetchDecode_instr hd).1))
      · obtain ⟨hrun', hreason', herrPc, herrByte, -⟩ := exec_statusSame hvalid hhlt hexec
        exact inv_of_running hwf' (hrun'.trans hrun) (hreason'.trans hreason)
          ⟨herrPc.trans herr.1, herrByte.trans herr.2⟩

theorem inv_heldState (m : OpcodeMap) : Inv m heldState :=
  ⟨by decide, nofun, fun _ => ⟨rfl, ⟨rfl, rfl⟩, rfl, rfl, rfl⟩, nofun⟩

/-- The load port writes memory and the latch, and of memory the invariant asks only the canonical form while in reset. -/
theorem inv_loadPort {m : OpcodeMap} (p : InputPorts) {s : State} (hs : s.run = .heldInReset) (hinv : Inv m s) :
    Inv m (loadPort p s) := by
  obtain ⟨hwf, -, hheld, -⟩ := hinv
  have hwf' := loadPort_mem_wf p hwf
  rw [loadPort_frame] at hwf' ⊢
  exact ⟨hwf', fun h => (nomatch hs.symm.trans h), hheld, fun h => (nomatch hs.symm.trans h)⟩

theorem inv_startRunning {m : OpcodeMap} {s : State} (hs : s.run = .heldInReset) (hinv : Inv m s) :
    Inv m (startRunning s) := by
  obtain ⟨hwf, -, hheld, -⟩ := hinv
  obtain ⟨hreason, herr, -⟩ := hheld hs
  exact inv_of_running hwf rfl hreason herr

/-! ### Words placed at `pc` (R81 to R83) -/

/-- Byte `k` of at most 256 stored bytes is read back `k` past the first address. -/
theorem State.memRead_storeBytes_of_getElem? {s : State} (hwf : s.mem.wf) (a : Byte) {bs : List Byte}
    (hlen : bs.length ≤ 256) {k : Nat} {v : Byte} (hk : bs[k]? = some v) :
    (s.storeBytes a bs).memRead (a + BitVec.ofNat 8 k) = v := by
  have hlt : k < bs.length := (List.getElem?_eq_some_iff.mp hk).1
  have hoffset : (a + BitVec.ofNat 8 k - a).toNat = k := by
    rw [BitVec.add_comm, BitVec.add_sub_cancel, BitVec.toNat_ofNat, Nat.mod_eq_of_lt (show k < 2 ^ 8 by omega)]
  rw [State.memRead_storeBytes hwf a _ hlen, hoffset, List.getD_eq_getElem?_getD, hk, Option.getD_some]

/-- A word that decodes to an instruction is the encoding of it, followed by the bytes left over. -/
theorem tableBytes_of_decodeTableWord {nbits w : Nat} {i : Instr} (h : decodeTableWord nbits w = some i) :
    ∃ rest, tableBytes nbits w = encode defaultOpcodeMap i ++ rest := by
  unfold decodeTableWord at h
  split at h
  · next j rest hd =>
    cases h
    exact ⟨rest, decodedBytesAreTheEncoding _ defaultOpcodeMap_legal _ _ _ hd⟩
  · cases h

/-- Placing a word changes memory and the run state alone. -/
theorem State.withFetchWord_frame (s : State) (nbits w : Nat) :
    s.withFetchWord nbits w =
      { s with mem := (s.storeBytes s.pc (tableBytes nbits w)).mem, run := .running } := by
  rw [State.withFetchWord, State.placeWord, State.storeBytes_eq_with_mem rfl]

/-- The bytes of a placed word lie in memory from `pc` on. -/
theorem State.memRead_withFetchWord {s : State} (hwf : s.mem.wf) {nbits w k : Nat} {v : Byte}
    (hk : (tableBytes nbits w)[k]? = some v) :
    (s.withFetchWord nbits w).memRead ((s.withFetchWord nbits w).pc + BitVec.ofNat 8 k) = v := by
  have hlen : (tableBytes nbits w).length ≤ 256 := by simp [tableBytes]
  rw [State.withFetchWord_frame]
  exact State.memRead_storeBytes_of_getElem? hwf s.pc hlen hk

theorem fetchDecode_withFetchWord {s : State} (hwf : s.mem.wf) {nbits w : Nat} {i : Instr}
    (h : decodeTableWord nbits w = some i) : fetchDecode defaultOpcodeMap (s.withFetchWord nbits w) = .instr i := by
  obtain ⟨rest, hbytes⟩ := tableBytes_of_decodeTableWord h
  refine fetchDecode_of_encode defaultOpcodeMap_legal fun k v hk => State.memRead_withFetchWord hwf ?_
  rw [hbytes, List.getElem?_append_left (List.getElem?_eq_some_iff.mp hk).1, hk]

end Sys2Proof.Machine
end

section
/-! The obligations on the invariant, on placed words and on the sample words. -/
namespace Sys2Proof.Machine

/-- Settles O45, at the default map. -/
theorem everyStepKeepsTheInvariant : Obligations.EveryStepKeepsTheInvariant := fun _ _ hinv h => inv_engineStep hinv h

/-- Settles O46, by the cases of `sampleInputs`. -/
theorem portsKeepTheInvariant : Obligations.PortsKeepTheInvariant := by
  intro m p s hinv
  by_cases hs : s.run = .heldInReset
  · cases hp : p.rst with
    | true => simpa only [sampleInputs_load hp hs] using inv_loadPort p hs hinv
    | false => simpa only [sampleInputs_start hp hs] using inv_startRunning hs hinv
  · cases hp : p.rst with
    | true => simpa only [sampleInputs_reset hp hs] using inv_loadPort p rfl (inv_heldState m)
    | false => simpa only [sampleInputs_idle hp hs] using hinv

/-- Settles O9: the placed bytes are the instruction's encoding, which the fetch from `pc` decodes. -/
theorem placedWordIsRun : Obligations.PlacedWordIsRun := fun s nbits w _ hwf h =>
  have hrun : (s.withFetchWord nbits w).run = .running := by rw [State.withFetchWord_frame]
  engineStep_of_instr hrun (fetchDecode_withFetchWord hwf h)

/-- Settles O1: each word is the encoding of its instruction, which decodes back to it with nothing left over (O4). -/
theorem sampleWordsDecode : Obligations.SampleWordsDecode := by
  have h := fun i => decodeOfEncodeIsTheInstruction defaultOpcodeMap defaultOpcodeMap_legal i []
  exact ⟨h .hlt, h .ret, h (.push 3#8), h (.pop 7#8), h (.prn 0#8), h (.call 1#8), h (.ldi 0#8 8#8), h (.add 2#8 5#8),
    h (.mul 6#8 4#8)⟩

end Sys2Proof.Machine
end
